-- ==== Sys2Proof/Word.lean ====
section
/-!
DEFINITION. The bit vectors of the Beta: the 32-bit word, the byte, and the fields of an instruction word
(spec/00_scope.md section 5, spec/30_encoding.md R81, R82).
-/

namespace Sys2Proof

/-- A 32-bit word: the width of every register and of every memory access (10_state.md R20, 20_memory.md R50). -/
abbrev Word := BitVec 32

/-- The unit of the byte-addressed memory (10_state.md R33). -/
abbrev Byte := BitVec 8

/-- A 5-bit register field: any of the 32 registers (10_state.md R20). -/
abbrev RegNum := BitVec 5

/-- The 16-bit literal field (30_encoding.md R82). -/
abbrev Lit := BitVec 16

/-- The 6-bit opcode field (30_encoding.md R81). -/
abbrev Opcode := BitVec 6

/-- Register 30, the exception pointer (10_state.md R22). -/
abbrev xp : RegNum := 30#5

/-- Register 31, which reads zero and discards writes (10_state.md R21). -/
abbrev r31 : RegNum := 31#5

end Sys2Proof
end

