-- ==== Sys2Proof/Config.lean ====
section
/-!
DEFINITION. What an implementation of the Beta fixes (spec/00_scope.md section 4, spec/92_eei_decisions.md): the
parameters as plain data, which a State carries so that a claim quantifies over them or names an instantiation, and
the values `State.reset` takes for what the spec leaves open.
-/

namespace Sys2Proof

/-- The kinds of exception that follow the entry sequence of 60_exceptions.md R204 (R201). Reset is the third kind of
R201 and is no value here: it does not follow that sequence (R209). There are no others (D23). -/
inductive ExceptionKind where
  | illegalInstruction
  | interrupt (source : Nat)
deriving DecidableEq, Repr

/-- BYTE_ORDER: which byte of a word lies at its lowest address (20_memory.md R54). No program can observe it. -/
inductive ByteOrder where
  | little
  | big
deriving DecidableEq, Repr

/-- A region of the address space: `size` bytes from `base`. -/
structure Region where
  base : Nat
  size : Nat
deriving DecidableEq, Repr

/-- MISALIGNED_POLICY: what LD and ST do with an effective address that is no multiple of 4 (20_memory.md R52, D2). -/
inductive MisalignedPolicy where
  /-- Stop in a model fault: the spec's decision, and its default. -/
  | fault
  /-- The instantiation D2 leaves to "a user who knows the implementation ignores the bits": `EA & ~3`. -/
  | clearLowBits
deriving DecidableEq, Repr

/-- DIV_BY_ZERO and DIV_OVERFLOW: what DIV and DIVC do where the quotient is not representable (00_scope.md section 4). -/
inductive QuotientPolicy where
  /-- Stop in a model fault: the spec's decisions D5 and D6, and its default. -/
  | fault
  /-- Go on, as every other division does, with a quotient that nothing constrains. -/
  | freeValue
deriving DecidableEq, Repr

/-- The parameters of one implementation, as plain data. No step changes them, whatever PRIV_STEP is named (entries 21 and
27: the model's choice).
A vector is held as its address divided by 4, so that `VEC(kind)[1:0] = 0` (60_exceptions.md R208) holds of every value. -/
structure Platform where
  /-- VEC(IllegalInstruction) divided by 4 (60_exceptions.md R208, D12). -/
  vecIllegal : BitVec 30
  /-- VEC(Interrupt k) divided by 4 at position k. IRQ_SOURCES is the set of the list's positions (R212, D14). -/
  vecIrq : List (BitVec 30)
  /-- The regions that hold no memory: MAPPED is false in them and true elsewhere (20_memory.md R51, D16). -/
  holes : List Region
  /-- BYTE_ORDER (20_memory.md R54, D1). -/
  byteOrder : ByteOrder
  /-- MISALIGNED_POLICY (20_memory.md R52, D2). -/
  misaligned : MisalignedPolicy
  /-- DIV_BY_ZERO (40_arithmetic.md R117, D5). -/
  divByZero : QuotientPolicy
  /-- DIV_OVERFLOW (40_arithmetic.md R117, D6). -/
  divOverflow : QuotientPolicy
deriving DecidableEq, Repr

namespace Config

/-- The vector of the illegal instruction exception, divided by 4, of the machine that `State.reset` starts.
Implementation-defined (60_exceptions.md R208, D12): a free value, with no body to reason from (entry 9). -/
opaque vecIllegal : BitVec 30

/-- The quotient of a word by 0 on an implementation that goes on (`QuotientPolicy.freeValue`): a free value (entry 4). -/
opaque quotientByZero : Word → Word

/-- The quotient of -2^31 by -1 on an implementation that goes on: a free value (entry 5). -/
opaque quotientOverflow : Word

/-- The platform of the machine that `State.reset` starts: the free illegal-instruction vector (entry 9), IRQ_SOURCES
empty (entry 23), and the spec's defaults for the rest (92_eei_decisions.md, last table): every word mapped (entry 13),
little-endian (entry 1), and the three policies a fault (entries 2, 4, 5). DESIGN CHOICE; unsafe. -/
def platform : Platform :=
  { vecIllegal := vecIllegal, vecIrq := [], holes := [], byteOrder := .little, misaligned := .fault,
    divByZero := .fault, divOverflow := .fault }

/-- What r0 to r30 hold in `State.reset`. The spec gives no value and forbids 0 (10_state.md R38): DESIGN CHOICE of a
word that is not 0, a multiple of 4, with the high bit set (entry 14). Unsafe: no claim may rest on it. -/
def resetRegister : Word := 0xA5A5A5A4#32

/-- "The exception vector for power up is always 0" (10_state.md R36, 70_reset_and_hazards.md R240). -/
def resetVector : BitVec 31 := 0#31

end Config

end Sys2Proof
end

