-- ==== Sys2Proof/Syntax.lean ====
section
/-!
DEFINITION. The instructions: one constructor for each row of spec/opcode_table.json. The operands stand in the order
of the source's Usage lines (30_encoding.md R95). Bits that decode ignores are no operands (R89, R90, R91, R99).
-/

namespace Sys2Proof

/-- The instructions of the Beta: the 32 of 30_encoding.md R87, the privileged opcode (R92), and the 31 illegal opcodes
(R93; 46_privileged_and_illegal.md R191), whose bits 25:0 have no meaning and are kept as they stand. -/
inductive Instr where
  /-- ADD (Ra, Rb, Rc): 40_arithmetic.md R111. -/
  | add (ra rb rc : RegNum)
  /-- SUB (Ra, Rb, Rc): 40_arithmetic.md R113. -/
  | sub (ra rb rc : RegNum)
  /-- MUL (Ra, Rb, Rc): 40_arithmetic.md R115. -/
  | mul (ra rb rc : RegNum)
  /-- DIV (Ra, Rb, Rc): 40_arithmetic.md R117. -/
  | div (ra rb rc : RegNum)
  /-- CMPEQ (Ra, Rb, Rc): 43_compare.md R161. -/
  | cmpeq (ra rb rc : RegNum)
  /-- CMPLT (Ra, Rb, Rc): 43_compare.md R165. -/
  | cmplt (ra rb rc : RegNum)
  /-- CMPLE (Ra, Rb, Rc): 43_compare.md R163. -/
  | cmple (ra rb rc : RegNum)
  /-- AND (Ra, Rb, Rc): 41_logical.md R131. -/
  | and (ra rb rc : RegNum)
  /-- OR (Ra, Rb, Rc): 41_logical.md R133. -/
  | or (ra rb rc : RegNum)
  /-- XOR (Ra, Rb, Rc): 41_logical.md R135. -/
  | xor (ra rb rc : RegNum)
  /-- SHL (Ra, Rb, Rc): 45_shift.md R181. -/
  | shl (ra rb rc : RegNum)
  /-- SHR (Ra, Rb, Rc): 45_shift.md R183. -/
  | shr (ra rb rc : RegNum)
  /-- SRA (Ra, Rb, Rc): 45_shift.md R185. -/
  | sra (ra rb rc : RegNum)
  /-- ADDC (Ra, literal, Rc): 40_arithmetic.md R112. -/
  | addc (ra : RegNum) (lit : Lit) (rc : RegNum)
  /-- SUBC (Ra, literal, Rc): 40_arithmetic.md R114. -/
  | subc (ra : RegNum) (lit : Lit) (rc : RegNum)
  /-- MULC (Ra, literal, Rc): 40_arithmetic.md R116. -/
  | mulc (ra : RegNum) (lit : Lit) (rc : RegNum)
  /-- DIVC (Ra, literal, Rc): 40_arithmetic.md R118. -/
  | divc (ra : RegNum) (lit : Lit) (rc : RegNum)
  /-- CMPEQC (Ra, literal, Rc): 43_compare.md R162. -/
  | cmpeqc (ra : RegNum) (lit : Lit) (rc : RegNum)
  /-- CMPLTC (Ra, literal, Rc): 43_compare.md R166. -/
  | cmpltc (ra : RegNum) (lit : Lit) (rc : RegNum)
  /-- CMPLEC (Ra, literal, Rc): 43_compare.md R164. -/
  | cmplec (ra : RegNum) (lit : Lit) (rc : RegNum)
  /-- ANDC (Ra, literal, Rc): 41_logical.md R132. -/
  | andc (ra : RegNum) (lit : Lit) (rc : RegNum)
  /-- ORC (Ra, literal, Rc): 41_logical.md R134. -/
  | orc (ra : RegNum) (lit : Lit) (rc : RegNum)
  /-- XORC (Ra, literal, Rc): 41_logical.md R136. -/
  | xorc (ra : RegNum) (lit : Lit) (rc : RegNum)
  /-- SHLC (Ra, literal, Rc): 45_shift.md R182. -/
  | shlc (ra : RegNum) (lit : Lit) (rc : RegNum)
  /-- SHRC (Ra, literal, Rc): 45_shift.md R184. -/
  | shrc (ra : RegNum) (lit : Lit) (rc : RegNum)
  /-- SRAC (Ra, literal, Rc): 45_shift.md R186. -/
  | srac (ra : RegNum) (lit : Lit) (rc : RegNum)
  /-- LD (Ra, literal, Rc): 44_load_store.md R171. -/
  | ld (ra : RegNum) (lit : Lit) (rc : RegNum)
  /-- ST (Rc, literal, Ra), the data source first: 44_load_store.md R173. -/
  | st (rc : RegNum) (lit : Lit) (ra : RegNum)
  /-- LDR (label, Rc), the label as its literal: 44_load_store.md R172. -/
  | ldr (lit : Lit) (rc : RegNum)
  /-- JMP (Ra, Rc): 42_control_transfer.md R143. -/
  | jmp (ra rc : RegNum)
  /-- BEQ (Ra, label, Rc), alias BF: 42_control_transfer.md R141. -/
  | beq (ra : RegNum) (lit : Lit) (rc : RegNum)
  /-- BNE (Ra, label, Rc), alias BT: 42_control_transfer.md R142. -/
  | bne (ra : RegNum) (lit : Lit) (rc : RegNum)
  /-- A word with opcode 0x00, with its implementation-defined bits 25:0: 46_privileged_and_illegal.md R190. -/
  | priv (bits : BitVec 26)
  | illop01 (bits : BitVec 26)
  | illop02 (bits : BitVec 26)
  | illop03 (bits : BitVec 26)
  | illop04 (bits : BitVec 26)
  | illop05 (bits : BitVec 26)
  | illop06 (bits : BitVec 26)
  | illop07 (bits : BitVec 26)
  | illop08 (bits : BitVec 26)
  | illop09 (bits : BitVec 26)
  | illop0A (bits : BitVec 26)
  | illop0B (bits : BitVec 26)
  | illop0C (bits : BitVec 26)
  | illop0D (bits : BitVec 26)
  | illop0E (bits : BitVec 26)
  | illop0F (bits : BitVec 26)
  | illop10 (bits : BitVec 26)
  | illop11 (bits : BitVec 26)
  | illop12 (bits : BitVec 26)
  | illop13 (bits : BitVec 26)
  | illop14 (bits : BitVec 26)
  | illop15 (bits : BitVec 26)
  | illop16 (bits : BitVec 26)
  | illop17 (bits : BitVec 26)
  | illop1A (bits : BitVec 26)
  | illop1C (bits : BitVec 26)
  | illop27 (bits : BitVec 26)
  | illop2B (bits : BitVec 26)
  | illop2F (bits : BitVec 26)
  | illop37 (bits : BitVec 26)
  | illop3B (bits : BitVec 26)
  | illop3F (bits : BitVec 26)
deriving DecidableEq, Repr

/-- BF, "branch if false", is BEQ (30_encoding.md R96). -/
abbrev Instr.bf (ra : RegNum) (lit : Lit) (rc : RegNum) : Instr := .beq ra lit rc

/-- BT, "branch if true", is BNE (30_encoding.md R96). -/
abbrev Instr.bt (ra : RegNum) (lit : Lit) (rc : RegNum) : Instr := .bne ra lit rc

end Sys2Proof
end

