-- ==== Sys2Proof/WellFormed.lean ====
section
/-!
DEFINITION. Well-formedness. Every field of `Instr` has its encoded width as its type, so no term of `Instr` is
ill-formed. What can be ill-formed is a WORD whose bits the source calls unused are not zero (such a word still executes:
30_encoding.md R89 to R91, D11), and a LABEL that the 16-bit literal cannot reach (R97).
-/

namespace Sys2Proof

/-- The thirteen opcodes of format OP (30_encoding.md R83). -/
def opOpcodes : List Opcode :=
  [0x20#6, 0x21#6, 0x22#6, 0x23#6, 0x24#6, 0x25#6, 0x26#6, 0x28#6, 0x29#6, 0x2A#6, 0x2C#6, 0x2D#6, 0x2E#6]

/-- The word is as an assembler writes it: bits 10:0 of format OP, the literal of JMP and the ra field of LDR are zero
(30_encoding.md R89, R90, R91). Format OP is the thirteen opcodes of R83. -/
def wordWellFormed (w : Word) : Bool :=
  let op := w.extractLsb' 26 6
  if op ∈ opOpcodes then
    w.extractLsb' 0 11 == 0#11
  else if op = 0x1B#6 then w.extractLsb' 0 16 == 0#16
  else if op = 0x1F#6 then w.extractLsb' 16 5 == 0#5
  else true

/-- The distance in bytes from one address to a label. -/
def labelDistance (here label : Nat) : Int := (label : Int) - (here : Int)

/-- The label lies a multiple of 4 away from the instruction (30_encoding.md R97). -/
def labelAligned (here label : Nat) : Bool := labelDistance here label % 4 == 0

/-- The label lies within -32767 to +32768 words of the instruction, so that the literal fits (30_encoding.md R97). -/
def labelInRange (here label : Nat) : Bool :=
  decide (-32767 * 4 ≤ labelDistance here label) && decide (labelDistance here label ≤ 32768 * 4)

/-- BEQ, BNE or LDR at `here` can name the label (30_encoding.md R97). -/
def labelWellFormed (here label : Nat) : Bool := labelAligned here label && labelInRange here label

end Sys2Proof
end

