-- ==== Sys2Proof/Decode.lean ====
section
/-!
DEFINITION. The decoder, total on all words (30_encoding.md R99), the bytes of a word in either byte order
(20_memory.md R54), and the encoder (R81, R82, R87).
-/

namespace Sys2Proof

/-! ## The fields of an instruction word (30_encoding.md R81, R82) -/

/-- `opcode`, bits 31:26. -/
def opcodeField (w : Word) : Opcode := w.extractLsb' 26 6

/-- `rc`, bits 25:21. -/
def rcField (w : Word) : RegNum := w.extractLsb' 21 5

/-- `ra`, bits 20:16. -/
def raField (w : Word) : RegNum := w.extractLsb' 16 5

/-- `rb`, bits 15:11 (format OP). -/
def rbField (w : Word) : RegNum := w.extractLsb' 11 5

/-- `lit`, bits 15:0 (format OPC). -/
def litField (w : Word) : Lit := w.extractLsb' 0 16

/-- Bits 25:0, which opcode 0x00 and the illegal opcodes leave without an architected meaning (R92, R93). -/
def bitsField (w : Word) : BitVec 26 := w.extractLsb' 0 26

/-! ## Decode -/

/-- The instruction a word stands for. The opcode alone selects it (30_encoding.md R83, R87, R93), and bits 10:0 of
format OP, the literal of JMP and the ra field of LDR are ignored (R89 to R91, D11; entry 8). The rows are the grid of
R88; the last one is opcode 0x3F. -/
def decode (w : Word) : Instr :=
  match opcodeField w with
  | 0x00#6 => .priv (bitsField w)
  | 0x01#6 => .illop01 (bitsField w)
  | 0x02#6 => .illop02 (bitsField w)
  | 0x03#6 => .illop03 (bitsField w)
  | 0x04#6 => .illop04 (bitsField w)
  | 0x05#6 => .illop05 (bitsField w)
  | 0x06#6 => .illop06 (bitsField w)
  | 0x07#6 => .illop07 (bitsField w)
  | 0x08#6 => .illop08 (bitsField w)
  | 0x09#6 => .illop09 (bitsField w)
  | 0x0A#6 => .illop0A (bitsField w)
  | 0x0B#6 => .illop0B (bitsField w)
  | 0x0C#6 => .illop0C (bitsField w)
  | 0x0D#6 => .illop0D (bitsField w)
  | 0x0E#6 => .illop0E (bitsField w)
  | 0x0F#6 => .illop0F (bitsField w)
  | 0x10#6 => .illop10 (bitsField w)
  | 0x11#6 => .illop11 (bitsField w)
  | 0x12#6 => .illop12 (bitsField w)
  | 0x13#6 => .illop13 (bitsField w)
  | 0x14#6 => .illop14 (bitsField w)
  | 0x15#6 => .illop15 (bitsField w)
  | 0x16#6 => .illop16 (bitsField w)
  | 0x17#6 => .illop17 (bitsField w)
  | 0x18#6 => .ld (raField w) (litField w) (rcField w)
  | 0x19#6 => .st (rcField w) (litField w) (raField w)
  | 0x1A#6 => .illop1A (bitsField w)
  | 0x1B#6 => .jmp (raField w) (rcField w)
  | 0x1C#6 => .illop1C (bitsField w)
  | 0x1D#6 => .beq (raField w) (litField w) (rcField w)
  | 0x1E#6 => .bne (raField w) (litField w) (rcField w)
  | 0x1F#6 => .ldr (litField w) (rcField w)
  | 0x20#6 => .add (raField w) (rbField w) (rcField w)
  | 0x21#6 => .sub (raField w) (rbField w) (rcField w)
  | 0x22#6 => .mul (raField w) (rbField w) (rcField w)
  | 0x23#6 => .div (raField w) (rbField w) (rcField w)
  | 0x24#6 => .cmpeq (raField w) (rbField w) (rcField w)
  | 0x25#6 => .cmplt (raField w) (rbField w) (rcField w)
  | 0x26#6 => .cmple (raField w) (rbField w) (rcField w)
  | 0x27#6 => .illop27 (bitsField w)
  | 0x28#6 => .and (raField w) (rbField w) (rcField w)
  | 0x29#6 => .or (raField w) (rbField w) (rcField w)
  | 0x2A#6 => .xor (raField w) (rbField w) (rcField w)
  | 0x2B#6 => .illop2B (bitsField w)
  | 0x2C#6 => .shl (raField w) (rbField w) (rcField w)
  | 0x2D#6 => .shr (raField w) (rbField w) (rcField w)
  | 0x2E#6 => .sra (raField w) (rbField w) (rcField w)
  | 0x2F#6 => .illop2F (bitsField w)
  | 0x30#6 => .addc (raField w) (litField w) (rcField w)
  | 0x31#6 => .subc (raField w) (litField w) (rcField w)
  | 0x32#6 => .mulc (raField w) (litField w) (rcField w)
  | 0x33#6 => .divc (raField w) (litField w) (rcField w)
  | 0x34#6 => .cmpeqc (raField w) (litField w) (rcField w)
  | 0x35#6 => .cmpltc (raField w) (litField w) (rcField w)
  | 0x36#6 => .cmplec (raField w) (litField w) (rcField w)
  | 0x37#6 => .illop37 (bitsField w)
  | 0x38#6 => .andc (raField w) (litField w) (rcField w)
  | 0x39#6 => .orc (raField w) (litField w) (rcField w)
  | 0x3A#6 => .xorc (raField w) (litField w) (rcField w)
  | 0x3B#6 => .illop3B (bitsField w)
  | 0x3C#6 => .shlc (raField w) (litField w) (rcField w)
  | 0x3D#6 => .shrc (raField w) (litField w) (rcField w)
  | 0x3E#6 => .srac (raField w) (litField w) (rcField w)
  | _ => .illop3F (bitsField w)

/-! ## The bytes of a word (20_memory.md R54) -/

/-- Which eight bits of a word, counted from bit 0, the byte at offset `i` of its four addresses holds. -/
def byteLane (o : ByteOrder) (i : Nat) : Nat :=
  match o with
  | .little => i
  | .big => 3 - i

/-- The byte at offset `i` of a word's four addresses. -/
def byteOf (o : ByteOrder) (w : Word) (i : Nat) : Byte := w.extractLsb' (8 * byteLane o i) 8

/-- The word whose bytes at offsets 0, 1, 2, 3 are these. -/
def wordOf (o : ByteOrder) (b0 b1 b2 b3 : Byte) : Word :=
  match o with
  | .little => b3 ++ b2 ++ b1 ++ b0
  | .big => b0 ++ b1 ++ b2 ++ b3

/-- The four bytes of a word, the lowest address first. -/
def wordBytes (o : ByteOrder) (w : Word) : List Byte := [byteOf o w 0, byteOf o w 1, byteOf o w 2, byteOf o w 3]

/-- Why bytes are no instruction. -/
inductive DecodeError where
  /-- Fewer than the four bytes of an instruction (30_encoding.md R80). -/
  | tooShort
deriving DecidableEq, Repr

/-- Decode from bytes, the lowest address first, with the bytes that follow the instruction. Every word is some
instruction, so only a lack of bytes is rejected. -/
def decodeBytes (o : ByteOrder) : List Byte → Except DecodeError (Instr × List Byte)
  | b0 :: b1 :: b2 :: b3 :: rest => .ok (decode (wordOf o b0 b1 b2 b3), rest)
  | _ => .error .tooShort

/-- The instruction the decoder reads from the bits `w` of an opcode-table row of `nbits` bits: the word is laid out in
its four bytes and given to the decoder. The byte order is of no consequence (`wordOf_wordBytes`). -/
def decodeTableWord (nbits w : Nat) : Option Instr :=
  match decodeBytes .little (wordBytes .little (BitVec.ofNat 32 (w % 2 ^ nbits))) with
  | .ok (i, _) => some i
  | .error _ => none

/-! ## Encode -/

/-- The opcode of every instruction (30_encoding.md R87, R92, R93). -/
def opcodeOf : Instr → Opcode
  | .priv _ => 0x00#6
  | .illop01 _ => 0x01#6
  | .illop02 _ => 0x02#6
  | .illop03 _ => 0x03#6
  | .illop04 _ => 0x04#6
  | .illop05 _ => 0x05#6
  | .illop06 _ => 0x06#6
  | .illop07 _ => 0x07#6
  | .illop08 _ => 0x08#6
  | .illop09 _ => 0x09#6
  | .illop0A _ => 0x0A#6
  | .illop0B _ => 0x0B#6
  | .illop0C _ => 0x0C#6
  | .illop0D _ => 0x0D#6
  | .illop0E _ => 0x0E#6
  | .illop0F _ => 0x0F#6
  | .illop10 _ => 0x10#6
  | .illop11 _ => 0x11#6
  | .illop12 _ => 0x12#6
  | .illop13 _ => 0x13#6
  | .illop14 _ => 0x14#6
  | .illop15 _ => 0x15#6
  | .illop16 _ => 0x16#6
  | .illop17 _ => 0x17#6
  | .ld _ _ _ => 0x18#6
  | .st _ _ _ => 0x19#6
  | .illop1A _ => 0x1A#6
  | .jmp _ _ => 0x1B#6
  | .illop1C _ => 0x1C#6
  | .beq _ _ _ => 0x1D#6
  | .bne _ _ _ => 0x1E#6
  | .ldr _ _ => 0x1F#6
  | .add _ _ _ => 0x20#6
  | .sub _ _ _ => 0x21#6
  | .mul _ _ _ => 0x22#6
  | .div _ _ _ => 0x23#6
  | .cmpeq _ _ _ => 0x24#6
  | .cmplt _ _ _ => 0x25#6
  | .cmple _ _ _ => 0x26#6
  | .illop27 _ => 0x27#6
  | .and _ _ _ => 0x28#6
  | .or _ _ _ => 0x29#6
  | .xor _ _ _ => 0x2A#6
  | .illop2B _ => 0x2B#6
  | .shl _ _ _ => 0x2C#6
  | .shr _ _ _ => 0x2D#6
  | .sra _ _ _ => 0x2E#6
  | .illop2F _ => 0x2F#6
  | .addc _ _ _ => 0x30#6
  | .subc _ _ _ => 0x31#6
  | .mulc _ _ _ => 0x32#6
  | .divc _ _ _ => 0x33#6
  | .cmpeqc _ _ _ => 0x34#6
  | .cmpltc _ _ _ => 0x35#6
  | .cmplec _ _ _ => 0x36#6
  | .illop37 _ => 0x37#6
  | .andc _ _ _ => 0x38#6
  | .orc _ _ _ => 0x39#6
  | .xorc _ _ _ => 0x3A#6
  | .illop3B _ => 0x3B#6
  | .shlc _ _ _ => 0x3C#6
  | .shrc _ _ _ => 0x3D#6
  | .srac _ _ _ => 0x3E#6
  | .illop3F _ => 0x3F#6

/-- Bits 25:0 of format OP; an assembler writes zeros in bits 10:0 (30_encoding.md R81, R89). -/
def opFields (rc ra rb : RegNum) : BitVec 26 := rc ++ ra ++ rb ++ 0#11

/-- Bits 25:0 of format OPC (30_encoding.md R82). -/
def opcFields (rc ra : RegNum) (lit : Lit) : BitVec 26 := rc ++ ra ++ lit

/-- Bits 25:0 of every instruction. JMP's literal and LDR's ra field are written zero (R90, R91). -/
def operandBits : Instr → BitVec 26
  | .priv bits => bits
  | .illop01 bits => bits
  | .illop02 bits => bits
  | .illop03 bits => bits
  | .illop04 bits => bits
  | .illop05 bits => bits
  | .illop06 bits => bits
  | .illop07 bits => bits
  | .illop08 bits => bits
  | .illop09 bits => bits
  | .illop0A bits => bits
  | .illop0B bits => bits
  | .illop0C bits => bits
  | .illop0D bits => bits
  | .illop0E bits => bits
  | .illop0F bits => bits
  | .illop10 bits => bits
  | .illop11 bits => bits
  | .illop12 bits => bits
  | .illop13 bits => bits
  | .illop14 bits => bits
  | .illop15 bits => bits
  | .illop16 bits => bits
  | .illop17 bits => bits
  | .ld ra lit rc => opcFields rc ra lit
  | .st rc lit ra => opcFields rc ra lit
  | .illop1A bits => bits
  | .jmp ra rc => opcFields rc ra 0#16
  | .illop1C bits => bits
  | .beq ra lit rc => opcFields rc ra lit
  | .bne ra lit rc => opcFields rc ra lit
  | .ldr lit rc => opcFields rc 0#5 lit
  | .add ra rb rc => opFields rc ra rb
  | .sub ra rb rc => opFields rc ra rb
  | .mul ra rb rc => opFields rc ra rb
  | .div ra rb rc => opFields rc ra rb
  | .cmpeq ra rb rc => opFields rc ra rb
  | .cmplt ra rb rc => opFields rc ra rb
  | .cmple ra rb rc => opFields rc ra rb
  | .illop27 bits => bits
  | .and ra rb rc => opFields rc ra rb
  | .or ra rb rc => opFields rc ra rb
  | .xor ra rb rc => opFields rc ra rb
  | .illop2B bits => bits
  | .shl ra rb rc => opFields rc ra rb
  | .shr ra rb rc => opFields rc ra rb
  | .sra ra rb rc => opFields rc ra rb
  | .illop2F bits => bits
  | .addc ra lit rc => opcFields rc ra lit
  | .subc ra lit rc => opcFields rc ra lit
  | .mulc ra lit rc => opcFields rc ra lit
  | .divc ra lit rc => opcFields rc ra lit
  | .cmpeqc ra lit rc => opcFields rc ra lit
  | .cmpltc ra lit rc => opcFields rc ra lit
  | .cmplec ra lit rc => opcFields rc ra lit
  | .illop37 bits => bits
  | .andc ra lit rc => opcFields rc ra lit
  | .orc ra lit rc => opcFields rc ra lit
  | .xorc ra lit rc => opcFields rc ra lit
  | .illop3B bits => bits
  | .shlc ra lit rc => opcFields rc ra lit
  | .shrc ra lit rc => opcFields rc ra lit
  | .srac ra lit rc => opcFields rc ra lit
  | .illop3F bits => bits

/-- The word of an instruction. -/
def encode (i : Instr) : Word := opcodeOf i ++ operandBits i

/-- The four bytes of an instruction, the lowest address first. -/
def encodeBytes (o : ByteOrder) (i : Instr) : List Byte := wordBytes o (encode i)

/-- The literal that BEQ, BNE or LDR at `here` holds to name a label:
`((OFFSET(label) - OFFSET(current instruction)) / 4) - 1` (30_encoding.md R97), where the label is reachable. -/
def labelLiteral (here label : Nat) : Option Lit :=
  if labelWellFormed here label then some (BitVec.ofInt 16 (labelDistance here label / 4 - 1)) else none

end Sys2Proof
end

