-- ==== Sys2Proof/Machine/State.lean ====
section
/-!
DEFINITION. The state of the Beta as plain data (10_state.md R37), the reasons a step can stop, and the state after
reset (10_state.md R36, 70_reset_and_hazards.md R240).
-/

namespace Sys2Proof.Machine

/-- The memory: the bytes that hold a value, by address (10_state.md R33). A byte that is not listed holds no value
(entry 15). -/
abbrev Memory := List Host.Cell

/-- The canonical form: addresses strictly rising and inside the 2^32-byte address space, so that equal memories are
equal lists. An unlisted byte reads as no value at all, so no entry can repeat what an unlisted address reads as. -/
abbrev Memory.wf (m : Memory) : Prop :=
  (m.map Prod.fst).Pairwise (· < ·) ∧ ∀ a ∈ m.map Prod.fst, a < 2 ^ 32

/-- The whole state (10_state.md R37), with the environment's requests (R35) and the implementation's parameters. -/
structure State where
  /-- r0 to r30 (10_state.md R20). Register 31 is the constant 0 and is not stored (R21). Register 30 is XP (R22). -/
  regs : Vector Word 31
  /-- The program counter, bit 31 the Supervisor bit, bits 30:0 the address of the instruction to be executed (R25). -/
  pc : Word
  /-- The one memory for instructions and data (10_state.md R34). -/
  mem : Memory
  /-- The environment's interrupt requests (10_state.md R35; 60_exceptions.md R211): the head is the request as it stands
  for the next user-mode instruction boundary (`none`: no request), and each such boundary takes one entry. In supervisor
  mode the head stays pending. No entry left: no request. Being finite is the model's choice, not the
  spec's (entry 11). -/
  irqRequests : List (Option Nat)
  /-- The implementation's parameters (00_scope.md section 4). No step changes them, under a PRIV_STEP neither (entries 21
  and 27). -/
  platform : Platform
deriving DecidableEq, Repr

/-- The programmer-visible state alone, the tuple of 10_state.md R37: what PRIV_STEP takes and gives (D15; entry 27). It is
a view of `State`, which holds each of its fields once. -/
structure Visible where
  /-- r0 to r30. -/
  regs : Vector Word 31
  /-- The program counter. -/
  pc : Word
  /-- The memory. -/
  mem : Memory
deriving DecidableEq, Repr

/-- Why the machine stops with a fault. None is an architectural exception: none writes XP, sets the Supervisor bit or
loads a vector (93_implementation_defined.md, end of part 1). -/
inductive Fault where
  /-- A trap or fault in supervisor mode: an illegal opcode executed with pc[31] = 1 (60_exceptions.md R220, U1).
  Raised by the 31 illegal opcodes, and by PRIV for a word that a named implementation does not define (R190, D15). Safe:
  the model stops where hardware has "implementation-defined (probably fatal) effects". -/
  | supervisorException
  /-- LD or ST with EA[1:0] not 0, where MISALIGNED_POLICY is fault (20_memory.md R52, U2). Also a fetch or LDR in a
  state whose pc is no multiple of 4, which no run reaches by what the spec defines (entry 24). Safe: the model stops where the spec gives no
  behaviour. -/
  | misalignedAccess
  /-- DIV or DIVC with divisor 0, where DIV_BY_ZERO is fault (40_arithmetic.md R117, R118, U3). Safe: as above. -/
  | divideByZero
  /-- DIV or DIVC of -2^31 by -1, where DIV_OVERFLOW is fault (40_arithmetic.md R117, R118, U4). Safe: as above. -/
  | divideOverflow
  /-- LD, LDR, ST or a fetch at a word that is not MAPPED (20_memory.md R51, U5). Safe: as above. -/
  | unmappedAccess
  /-- LD, LDR or a fetch of a word of which some byte was never written nor loaded (92_eei_decisions.md D18, U10, which
  the spec files under its name UnwrittenRegister). Safe: the model stops where the contents are unspecified. -/
  | unwrittenMemory
deriving DecidableEq, Repr

/-- Why an instruction has no meaning here. -/
inductive Refusal where
  /-- An instruction whose arm of `exec` has no meaning yet. Raised by `exec` alone. Safe: nothing is claimed of it. -/
  | notModelled (mnemonic : String)
  /-- A privileged instruction in supervisor mode, with its bits 25:0: PRIV_STEP, "form and semantics are
  implementation-defined" (46_privileged_and_illegal.md R190, D15, default refuse). Raised by PRIV where no implementation
  of PRIV_STEP is named. Safe: nothing is claimed of what an implementation makes of it. -/
  | privilegedUndefined (bits : BitVec 26)
deriving DecidableEq, Repr

/-- The state after reset of the machine with these parameters, register contents, memory image and environment:
supervisor mode, address 0, nothing else initialised (70_reset_and_hazards.md R240, R241). A claim about what follows
reset quantifies over the arguments (10_state.md R38). -/
def State.powerUp (platform : Platform) (regs : Vector Word 31) (image : Memory) (requests : List (Option Nat)) : State :=
  { regs := regs, pc := 1#1 ++ Config.resetVector, mem := image, irqRequests := requests, platform := platform }

/-- The machine right after reset, with no program loaded (entry 20): the values the spec gives, and for the rest the
values the log names (entries 1, 2, 4, 5, 9, 13, 14, 15, 23). -/
def State.reset : State :=
  State.powerUp Config.platform (Vector.replicate 31 Config.resetRegister) [] []

end Sys2Proof.Machine
end

