-- ==== Sys2Proof/Machine/Ops.lean ====
section
/-!
DEFINITION. The named operations over registers, the program counter and memory, taking an exception and returning from
one. Every meaning is built from these.
-/

namespace Sys2Proof.Machine

/-! ## Registers -/

/-- `x[r]`: register 31 reads as 0 (10_state.md R21). -/
def State.readReg (s : State) (r : RegNum) : Word :=
  if h : r.toNat < 31 then s.regs[r.toNat] else 0#32

/-- `x[r] <- v`: a write to register 31 is discarded (10_state.md R21). -/
def State.writeReg (s : State) (r : RegNum) (v : Word) : State :=
  if h : r.toNat < 31 then { s with regs := s.regs.set r.toNat v } else s

/-! ## The program counter -/

/-- `pc <- v`, all 32 bits. -/
def State.setPc (s : State) (v : Word) : State := { s with pc := v }

/-- The Supervisor bit S (10_state.md R25; 60_exceptions.md R217). -/
def State.supervisor (s : State) : Bool := s.pc.getLsbD 31

/-- The updated PC: the low 31 bits plus 4, modulo 2^31, with bit 31 kept (10_state.md R27, D7; entry 6). -/
def incPc (p : Word) : Word := p.extractLsb' 31 1 ++ (p.extractLsb' 0 31 + 4#31)

/-- PC plus a displacement, on the low 31 bits, with bit 31 kept (10_state.md R27, D7; entry 6). -/
def pcRel (p d : Word) : Word := p.extractLsb' 31 1 ++ (p.extractLsb' 0 31 + d.extractLsb' 0 31)

/-- The memory address a PC value presents: bit 31 is treated as if it were zero (10_state.md R28, 20_memory.md R55). -/
def pcAddress (p : Word) : Word := 0#1 ++ p.extractLsb' 0 31

/-- The PC that JMP loads through a register: the low two bits are masked, and the Supervisor bit can be cleared but not
set (42_control_transfer.md R143). -/
def jumpPc (p target : Word) : Word :=
  (p.extractLsb' 31 1 &&& target.extractLsb' 31 1) ++ (target &&& 0xFFFFFFFC#32).extractLsb' 0 31

/-- End an instruction with the updated PC (00_scope.md section 6, step 5). -/
def State.advance (s : State) : State := s.setPc (incPc s.pc)

/-- The end of every computation and load: write the destination, then the updated PC (00_scope.md section 6). -/
def State.finish (s : State) (rc : RegNum) (v : Word) : State := (s.writeReg rc v).advance

/-! ## Memory, byte by byte -/

/-- The byte at an address, if it holds a value. -/
def Memory.byte? : Memory → Nat → Option Byte
  | [], _ => none
  | (k, b) :: m, a => if k = a then some b else Memory.byte? m a

/-- Write one byte, keeping the addresses strictly rising. -/
def Memory.setByte : Memory → Nat → Byte → Memory
  | [], a, v => [(a, v)]
  | (k, b) :: m, a, v =>
    if a < k then (a, v) :: (k, b) :: m
    else if a = k then (a, v) :: m
    else (k, b) :: Memory.setByte m a v

/-! ## Memory, word by word (20_memory.md R50, R51) -/

/-- The word in the four bytes from `a`, if each of them holds a value. -/
def Memory.word? (o : ByteOrder) (m : Memory) (a : Nat) : Option Word :=
  match Memory.byte? m a, Memory.byte? m (a + 1), Memory.byte? m (a + 2), Memory.byte? m (a + 3) with
  | some b0, some b1, some b2, some b3 => some (wordOf o b0 b1 b2 b3)
  | _, _, _, _ => none

/-- Write the four bytes of a word from `a`. -/
def Memory.setWord (o : ByteOrder) (m : Memory) (a : Nat) (v : Word) : Memory :=
  (((m.setByte a (byteOf o v 0)).setByte (a + 1) (byteOf o v 1)).setByte (a + 2) (byteOf o v 2)).setByte (a + 3)
    (byteOf o v 3)

/-- The region covers the address. -/
def regionCovers (r : Region) (a : Nat) : Bool := decide (r.base ≤ a) && decide (a < r.base + r.size)

/-- MAPPED(a), for the address of a word (20_memory.md R51, D16). -/
def mapped (p : Platform) (a : Word) : Bool := !p.holes.any (fun r => regionCovers r a.toNat)

/-- The address of the word that an access at `a` reaches: `a` itself where it is a multiple of 4, else what
MISALIGNED_POLICY says, by default a stop (20_memory.md R52, D2; entry 2). -/
def wordAddress (p : Platform) (a : Word) : Except Fault Word :=
  if a.extractLsb' 0 2 = 0#2 then .ok a
  else
    match p.misaligned with
    | .fault => .error .misalignedAccess
    | .clearLowBits => .ok (a &&& 0xFFFFFFFC#32)

/-- The first of the four byte addresses that an access at `a` reaches, or why it stops: alignment is tested first, then
MAPPED, in the order of 44_load_store.md R171 and R173. -/
def accessAt (p : Platform) (a : Word) : Except Fault Nat :=
  match wordAddress p a with
  | .error f => .error f
  | .ok b => if mapped p b then .ok b.toNat else .error .unmappedAccess

/-- `MemRead(a, 4)` (20_memory.md R51). It has no side effect. -/
def State.readWord (s : State) (a : Word) : Except Fault Word :=
  match accessAt s.platform a with
  | .error f => .error f
  | .ok n =>
    match Memory.word? s.platform.byteOrder s.mem n with
    | some w => .ok w
    | none => .error .unwrittenMemory

/-- `MemWrite(a, 4, v)` (20_memory.md R51). A write that stops changes nothing. -/
def State.writeWord (s : State) (a v : Word) : Except Fault State :=
  match accessAt s.platform a with
  | .error f => .error f
  | .ok n => .ok { s with mem := Memory.setWord s.platform.byteOrder s.mem n v }

/-- Fetch the word at the PC; bit 31 is ignored (10_state.md R28). -/
def State.fetch (s : State) : Except Fault Word := s.readWord (pcAddress s.pc)

/-- Go on with what a memory access or a quotient answers, or stop with its fault. -/
def orFault {α : Type} (r : Except Fault α) (f : α → Host.Outcome State Fault Refusal) :
    Host.Outcome State Fault Refusal :=
  match r with
  | .ok a => f a
  | .error e => .fault e

/-! ## Exceptions -/

/-- VEC(kind): a byte address, multiple of 4 (60_exceptions.md R208). For a source outside IRQ_SOURCES, which requests
nothing (`State.irqRequest`), the value is never used. -/
def vector (p : Platform) : ExceptionKind → Word
  | .illegalInstruction => p.vecIllegal ++ 0#2
  | .interrupt k => p.vecIrq.getD k 0#30 ++ 0#2

/-- Exception entry (60_exceptions.md R204): the updated PC is written to XP, the Supervisor bit is set and the PC is
loaded with the vector. Nothing else changes. It is stated, and used, for user mode. -/
def State.takeException (s : State) (kind : ExceptionKind) : State :=
  (s.writeReg xp (incPc s.pc)).setPc (1#1 ++ (vector s.platform kind).extractLsb' 0 31)

/-- Return from an exception (60_exceptions.md R214): load the PC from a word, masked, where the Supervisor bit can be
cleared and not set. Nothing else is restored. It is the last act of JMP, the only way to return. -/
def State.returnThrough (s : State) (target : Word) : State := s.setPc (jumpPc s.pc target)

/-- An instruction that raises the illegal instruction exception (60_exceptions.md R203): in user mode it takes the
exception; in supervisor mode a trap or fault has no defined effect, and the machine stops (R220, D13; entry 10). -/
def raiseIllegal (s : State) : Host.Outcome State Fault Refusal :=
  if s.supervisor then .fault .supervisorException else .next (s.takeException .illegalInstruction)

/-- The programmer-visible part of a state (10_state.md R37). -/
def State.visible (s : State) : Visible := { regs := s.regs, pc := s.pc, mem := s.mem }

/-- The state with another programmer-visible part, in the same surroundings: the environment's requests and the
implementation's parameters stay. -/
def State.withVisible (s : State) (v : Visible) : State := { s with regs := v.regs, pc := v.pc, mem := v.mem }

/-- An implementation's PRIV_STEP (92_eei_decisions.md D15): from bits 25:0 and the programmer-visible state to the one
left, or `none` for a word the implementation does not define (entry 12). It takes and gives the State of 10_state.md R37,
which holds no parameter and no interrupt request, so that a named PRIV_STEP changes neither MAPPED, nor VEC, nor another
parameter, nor a request in mid-run. D15 and R56 say nothing of a change of parameters: DESIGN CHOICE, unsafe for an
implementation that makes one (entry 27). It may leave any PC, in either mode: DESIGN CHOICE (entry 28). -/
abbrev PrivilegedMeaning := BitVec 26 → Visible → Option Visible

/-- PRIV_STEP, what opcode 0x00 does in supervisor mode: a parameter of the model. With no implementation named the word is
refused, the default. Under an implementation it does what the implementation says, and a word the implementation does not
define is a fault in supervisor mode (46_privileged_and_illegal.md R190, R191 b, D13, D15; entries 10, 12). The parameters
and the requests stay as they are, the model's choice (entry 27). The PC is whatever the implementation leaves, bit 31 set
or clear: 10_state.md R25 and R29 and 60_exceptions.md R219 give no instruction but JMP the clearing of the Supervisor bit,
and none but the control transfers a load of the PC, and the spec does not say whether they bind privileged instructions.
DESIGN CHOICE (entry 28): here they do not. -/
def privStep (implementation : Option PrivilegedMeaning) (bits : BitVec 26) (s : State) :
    Host.Outcome State Fault Refusal :=
  match implementation with
  | none => .refused (.privilegedUndefined bits)
  | some meaning =>
    match meaning bits s.visible with
    | some v => .next (s.withVisible v)
    | none => .fault .supervisorException

/-! ## Interrupts -/

/-- The source whose request stands at this boundary, if it is one of IRQ_SOURCES (60_exceptions.md R211, R212;
entry 26). The requests are a finite list, so after its end none stands: DESIGN CHOICE, unsafe for a claim that something
happens in the end, because R211, D14 and N15 let the environment request without end (entry 11). -/
def State.irqRequest (s : State) : Option Nat :=
  match s.irqRequests with
  | some k :: _ => if k < s.platform.vecIrq.length then some k else none
  | _ => none

/-- A user-mode instruction boundary takes one entry of the environment's requests (60_exceptions.md R211, D14). -/
def State.passBoundary (s : State) : State := { s with irqRequests := s.irqRequests.tail }

end Sys2Proof.Machine
end

