-- ==== Sys2Proof/Machine/Operands.lean ====
section
/-!
DEFINITION. The operand forms: a register, a sign-extended literal, a shift count, a PC-relative displacement, an
effective address (30_encoding.md R84 to R86, 20_memory.md R55).
-/

namespace Sys2Proof.Machine

/-- `sext_32(lit)` (30_encoding.md R84). -/
def sext (lit : Lit) : Word := lit.signExtend 32

/-- The five-bit count in a register, `x[rb][4:0]` (30_encoding.md R85). -/
def countOfWord (w : Word) : BitVec 5 := w.extractLsb' 0 5

/-- The five-bit count in a literal, `lit[4:0]`; bits 15:5 are ignored (30_encoding.md R85, D11; entry 8). -/
def countOfLit (lit : Lit) : BitVec 5 := lit.extractLsb' 0 5

/-- The displacement of BEQ, BNE and LDR in bytes, `4 * sext_32(lit)` (30_encoding.md R86). -/
def displacement (lit : Lit) : Word := 4#32 * sext lit

/-- The target of a branch, relative to the updated PC (42_control_transfer.md R141). -/
def branchTarget (pc : Word) (lit : Lit) : Word := pcRel (incPc pc) (displacement lit)

/-- The effective address of LD and ST: all 32 bits of the sum (44_load_store.md R171, D25; entry 19). -/
def effectiveAddress (s : State) (ra : RegNum) (lit : Lit) : Word := s.readReg ra + sext lit

/-- The effective address of LDR: relative to the updated PC, bit 31 zero (44_load_store.md R172, D8; entry 6). -/
def relativeAddress (s : State) (lit : Lit) : Word := pcAddress (branchTarget s.pc lit)

/-- A computation on two registers (format OP): both sources are read before the destination is written
(40_arithmetic.md R110; 00_scope.md section 6). -/
def opResult (f : Word → Word → Word) (ra rb rc : RegNum) (s : State) : Host.Outcome State Fault Refusal :=
  .next (s.finish rc (f (s.readReg ra) (s.readReg rb)))

/-- A computation on a register and a sign-extended literal (format OPC, 30_encoding.md R84). -/
def opcResult (f : Word → Word → Word) (ra : RegNum) (lit : Lit) (rc : RegNum) (s : State) :
    Host.Outcome State Fault Refusal :=
  .next (s.finish rc (f (s.readReg ra) (sext lit)))

end Sys2Proof.Machine
end

