-- ==== Sys2Proof/Machine/Arithmetic.lean ====
section
/-!
DEFINITION. ADD, ADDC, SUB, SUBC, MUL, MULC, DIV, DIVC (spec/40_arithmetic.md). None touches memory, changes the
Supervisor bit or raises an architectural exception (R110).
-/

namespace Sys2Proof.Machine

/-- ADD: the 32-bit sum, modulo 2^32, no carry or overflow information (40_arithmetic.md R111). -/
def execAdd (ra rb rc : RegNum) (s : State) : Host.Outcome State Fault Refusal :=
  opResult (· + ·) ra rb rc s

/-- ADDC (40_arithmetic.md R112). -/
def execAddc (ra : RegNum) (lit : Lit) (rc : RegNum) (s : State) : Host.Outcome State Fault Refusal :=
  opcResult (· + ·) ra lit rc s

/-- SUB: the minuend is Ra (40_arithmetic.md R113). -/
def execSub (ra rb rc : RegNum) (s : State) : Host.Outcome State Fault Refusal :=
  opResult (· - ·) ra rb rc s

/-- SUBC: the literal is sign-extended, then subtracted (40_arithmetic.md R114). -/
def execSubc (ra : RegNum) (lit : Lit) (rc : RegNum) (s : State) : Host.Outcome State Fault Refusal :=
  opcResult (· - ·) ra lit rc s

/-- MUL: the least significant 32 bits of the product (40_arithmetic.md R115). -/
def execMul (ra rb rc : RegNum) (s : State) : Host.Outcome State Fault Refusal :=
  opResult (· * ·) ra rb rc s

/-- MULC (40_arithmetic.md R116). -/
def execMulc (ra : RegNum) (lit : Lit) (rc : RegNum) (s : State) : Host.Outcome State Fault Refusal :=
  opcResult (· * ·) ra lit rc s

/-- What a division with no representable quotient does: by the spec's default it stops (D5, D6), else it goes on with a
free value. -/
def quotientCorner (policy : QuotientPolicy) (stop : Fault) (free : Word) : Except Fault Word :=
  match policy with
  | .fault => .error stop
  | .freeValue => .ok free

/-- The quotient of two words as signed integers, truncated toward zero (40_arithmetic.md R117, D4; entry 3), and the two
cases that have none: a zero divisor (DIV_BY_ZERO; entry 4), and -2^31 by -1 (DIV_OVERFLOW; entry 5). -/
def quotient (p : Platform) (a b : Word) : Except Fault Word :=
  if b.toInt = 0 then quotientCorner p.divByZero .divideByZero (Config.quotientByZero a)
  else if a.toInt = -2 ^ 31 ∧ b.toInt = -1 then quotientCorner p.divOverflow .divideOverflow Config.quotientOverflow
  else .ok (BitVec.ofInt 32 (a.toInt.tdiv b.toInt))

/-- DIV (40_arithmetic.md R117). -/
def execDiv (ra rb rc : RegNum) (s : State) : Host.Outcome State Fault Refusal :=
  orFault (quotient s.platform (s.readReg ra) (s.readReg rb)) fun q => .next (s.finish rc q)

/-- DIVC: "exactly as rule R117" with the sign-extended literal as divisor (40_arithmetic.md R118). -/
def execDivc (ra : RegNum) (lit : Lit) (rc : RegNum) (s : State) : Host.Outcome State Fault Refusal :=
  orFault (quotient s.platform (s.readReg ra) (sext lit)) fun q => .next (s.finish rc q)

end Sys2Proof.Machine
end

