-- ==== Sys2Proof/Machine/Flags.lean ====
section
/-!
DEFINITION. The Beta has no condition codes, status flags or predicate registers, and no instruction has a flag side
effect (10_state.md R30). In their place the compare instructions write a truth value to a general register: the truth
values and the three predicates stand here (43_compare.md R160).
-/

namespace Sys2Proof.Machine

/-- The word of a truth value: exactly 1 or 0 (43_compare.md R160). -/
def truth (b : Bool) : Word := if b then 1#32 else 0#32

/-- All 32 bits are equal (43_compare.md R161). -/
def cmpEq (a b : Word) : Word := truth (a == b)

/-- Signed less than: of the two integers, not of a wrapped difference (43_compare.md R165). -/
def cmpLt (a b : Word) : Word := truth (decide (a.toInt < b.toInt))

/-- Signed less than or equal (43_compare.md R163). -/
def cmpLe (a b : Word) : Word := truth (decide (a.toInt ≤ b.toInt))

end Sys2Proof.Machine
end

