-- ==== Sys2Proof/Machine/Compare.lean ====
section
/-!
DEFINITION. CMPEQ, CMPEQC, CMPLE, CMPLEC, CMPLT, CMPLTC (spec/43_compare.md R160 to R166).
-/

namespace Sys2Proof.Machine

/-- CMPEQ (43_compare.md R161). -/
def execCmpeq (ra rb rc : RegNum) (s : State) : Host.Outcome State Fault Refusal :=
  opResult cmpEq ra rb rc s

/-- CMPEQC (43_compare.md R162). -/
def execCmpeqc (ra : RegNum) (lit : Lit) (rc : RegNum) (s : State) : Host.Outcome State Fault Refusal :=
  opcResult cmpEq ra lit rc s

/-- CMPLE (43_compare.md R163). -/
def execCmple (ra rb rc : RegNum) (s : State) : Host.Outcome State Fault Refusal :=
  opResult cmpLe ra rb rc s

/-- CMPLEC (43_compare.md R164). -/
def execCmplec (ra : RegNum) (lit : Lit) (rc : RegNum) (s : State) : Host.Outcome State Fault Refusal :=
  opcResult cmpLe ra lit rc s

/-- CMPLT (43_compare.md R165). -/
def execCmplt (ra rb rc : RegNum) (s : State) : Host.Outcome State Fault Refusal :=
  opResult cmpLt ra rb rc s

/-- CMPLTC (43_compare.md R166). -/
def execCmpltc (ra : RegNum) (lit : Lit) (rc : RegNum) (s : State) : Host.Outcome State Fault Refusal :=
  opcResult cmpLt ra lit rc s

end Sys2Proof.Machine
end

