-- ==== Sys2Proof/Machine/Control.lean ====
section
/-!
DEFINITION. BEQ, BNE, JMP (spec/42_control_transfer.md R140 to R146). There are no delay slots (R144).
-/

namespace Sys2Proof.Machine

/-- The common part of BEQ and BNE: the link value is the updated PC, all 32 bits, written whether or not the branch is
taken; Ra was read before (42_control_transfer.md R140, R141; D10, entry 7). -/
def branch (taken : Bool) (lit : Lit) (rc : RegNum) (s : State) : State :=
  (s.writeReg rc (incPc s.pc)).setPc (if taken then branchTarget s.pc lit else incPc s.pc)

/-- BEQ, BF: taken if Ra is zero (42_control_transfer.md R141). -/
def execBeq (ra : RegNum) (lit : Lit) (rc : RegNum) (s : State) : Host.Outcome State Fault Refusal :=
  .next (branch (s.readReg ra == 0#32) lit rc s)

/-- BNE, BT: taken if Ra is not zero (42_control_transfer.md R142). -/
def execBne (ra : RegNum) (lit : Lit) (rc : RegNum) (s : State) : Host.Outcome State Fault Refusal :=
  .next (branch (s.readReg ra != 0#32) lit rc s)

/-- JMP: the target is the old value of Ra; the link value carries the old Supervisor bit. It is also the return from an
exception (42_control_transfer.md R143; 60_exceptions.md R214). -/
def execJmp (ra rc : RegNum) (s : State) : Host.Outcome State Fault Refusal :=
  .next ((s.writeReg rc (incPc s.pc)).returnThrough (s.readReg ra))

end Sys2Proof.Machine
end

