-- ==== Sys2Proof/Machine/LoadStore.lean ====
section
/-!
DEFINITION. LD, LDR, ST (spec/44_load_store.md R170 to R173), the only instructions that access data memory.
-/

namespace Sys2Proof.Machine

/-- LD: the word at the effective address is read into Rc. The address uses the old value of Ra, and the read is made
with Rc = r31 too (44_load_store.md R171). -/
def execLd (ra : RegNum) (lit : Lit) (rc : RegNum) (s : State) : Host.Outcome State Fault Refusal :=
  orFault (s.readWord (effectiveAddress s ra lit)) fun w => .next (s.finish rc w)

/-- LDR: the word at the updated PC plus four times the literal; no register is read (44_load_store.md R172). -/
def execLdr (lit : Lit) (rc : RegNum) (s : State) : Host.Outcome State Fault Refusal :=
  orFault (s.readWord (relativeAddress s lit)) fun w => .next (s.finish rc w)

/-- ST: the contents of Rc are written at the effective address; no register is written (44_load_store.md R173). -/
def execSt (rc : RegNum) (lit : Lit) (ra : RegNum) (s : State) : Host.Outcome State Fault Refusal :=
  orFault (s.writeWord (effectiveAddress s ra lit) (s.readReg rc)) fun t => .next t.advance

end Sys2Proof.Machine
end

