-- ==== Sys2Proof/Machine/Logical.lean ====
section
/-!
DEFINITION. AND, ANDC, OR, ORC, XOR, XORC (spec/41_logical.md R130 to R136).
-/

namespace Sys2Proof.Machine

/-- AND (41_logical.md R131). -/
def execAnd (ra rb rc : RegNum) (s : State) : Host.Outcome State Fault Refusal :=
  opResult (· &&& ·) ra rb rc s

/-- ANDC: the literal is sign-extended (41_logical.md R132). -/
def execAndc (ra : RegNum) (lit : Lit) (rc : RegNum) (s : State) : Host.Outcome State Fault Refusal :=
  opcResult (· &&& ·) ra lit rc s

/-- OR (41_logical.md R133). -/
def execOr (ra rb rc : RegNum) (s : State) : Host.Outcome State Fault Refusal :=
  opResult (· ||| ·) ra rb rc s

/-- ORC (41_logical.md R134). -/
def execOrc (ra : RegNum) (lit : Lit) (rc : RegNum) (s : State) : Host.Outcome State Fault Refusal :=
  opcResult (· ||| ·) ra lit rc s

/-- XOR (41_logical.md R135). -/
def execXor (ra rb rc : RegNum) (s : State) : Host.Outcome State Fault Refusal :=
  opResult (· ^^^ ·) ra rb rc s

/-- XORC (41_logical.md R136). -/
def execXorc (ra : RegNum) (lit : Lit) (rc : RegNum) (s : State) : Host.Outcome State Fault Refusal :=
  opcResult (· ^^^ ·) ra lit rc s

end Sys2Proof.Machine
end

