-- ==== Sys2Proof/Machine/Privileged.lean ====
section
/-!
DEFINITION. The privileged opcode 0x00 and the 31 illegal opcodes (spec/46_privileged_and_illegal.md R190, R191). A
service call is one of these words, executed in user mode (R192).
-/

namespace Sys2Proof.Machine

/-- PRIV under a PRIV_STEP: the illegal instruction exception in user mode, PRIV_STEP in supervisor mode
(46_privileged_and_illegal.md R190). -/
def execPrivWith (implementation : Option PrivilegedMeaning) (bits : BitVec 26) (s : State) :
    Host.Outcome State Fault Refusal :=
  if s.supervisor then privStep implementation bits s else raiseIllegal s

/-- PRIV with no implementation named, the spec's default (46_privileged_and_illegal.md R190, D15; entry 12). -/
def execPriv (bits : BitVec 26) (s : State) : Host.Outcome State Fault Refusal := execPrivWith none bits s

/-- Illegal opcode 0x01 (46_privileged_and_illegal.md R191). -/
def execIllop01 (s : State) : Host.Outcome State Fault Refusal := raiseIllegal s

/-- Illegal opcode 0x02 (46_privileged_and_illegal.md R191). -/
def execIllop02 (s : State) : Host.Outcome State Fault Refusal := raiseIllegal s

/-- Illegal opcode 0x03 (46_privileged_and_illegal.md R191). -/
def execIllop03 (s : State) : Host.Outcome State Fault Refusal := raiseIllegal s

/-- Illegal opcode 0x04 (46_privileged_and_illegal.md R191). -/
def execIllop04 (s : State) : Host.Outcome State Fault Refusal := raiseIllegal s

/-- Illegal opcode 0x05 (46_privileged_and_illegal.md R191). -/
def execIllop05 (s : State) : Host.Outcome State Fault Refusal := raiseIllegal s

/-- Illegal opcode 0x06 (46_privileged_and_illegal.md R191). -/
def execIllop06 (s : State) : Host.Outcome State Fault Refusal := raiseIllegal s

/-- Illegal opcode 0x07 (46_privileged_and_illegal.md R191). -/
def execIllop07 (s : State) : Host.Outcome State Fault Refusal := raiseIllegal s

/-- Illegal opcode 0x08 (46_privileged_and_illegal.md R191). -/
def execIllop08 (s : State) : Host.Outcome State Fault Refusal := raiseIllegal s

/-- Illegal opcode 0x09 (46_privileged_and_illegal.md R191). -/
def execIllop09 (s : State) : Host.Outcome State Fault Refusal := raiseIllegal s

/-- Illegal opcode 0x0A (46_privileged_and_illegal.md R191). -/
def execIllop0A (s : State) : Host.Outcome State Fault Refusal := raiseIllegal s

/-- Illegal opcode 0x0B (46_privileged_and_illegal.md R191). -/
def execIllop0B (s : State) : Host.Outcome State Fault Refusal := raiseIllegal s

/-- Illegal opcode 0x0C (46_privileged_and_illegal.md R191). -/
def execIllop0C (s : State) : Host.Outcome State Fault Refusal := raiseIllegal s

/-- Illegal opcode 0x0D (46_privileged_and_illegal.md R191). -/
def execIllop0D (s : State) : Host.Outcome State Fault Refusal := raiseIllegal s

/-- Illegal opcode 0x0E (46_privileged_and_illegal.md R191). -/
def execIllop0E (s : State) : Host.Outcome State Fault Refusal := raiseIllegal s

/-- Illegal opcode 0x0F (46_privileged_and_illegal.md R191). -/
def execIllop0F (s : State) : Host.Outcome State Fault Refusal := raiseIllegal s

/-- Illegal opcode 0x10 (46_privileged_and_illegal.md R191). -/
def execIllop10 (s : State) : Host.Outcome State Fault Refusal := raiseIllegal s

/-- Illegal opcode 0x11 (46_privileged_and_illegal.md R191). -/
def execIllop11 (s : State) : Host.Outcome State Fault Refusal := raiseIllegal s

/-- Illegal opcode 0x12 (46_privileged_and_illegal.md R191). -/
def execIllop12 (s : State) : Host.Outcome State Fault Refusal := raiseIllegal s

/-- Illegal opcode 0x13 (46_privileged_and_illegal.md R191). -/
def execIllop13 (s : State) : Host.Outcome State Fault Refusal := raiseIllegal s

/-- Illegal opcode 0x14 (46_privileged_and_illegal.md R191). -/
def execIllop14 (s : State) : Host.Outcome State Fault Refusal := raiseIllegal s

/-- Illegal opcode 0x15 (46_privileged_and_illegal.md R191). -/
def execIllop15 (s : State) : Host.Outcome State Fault Refusal := raiseIllegal s

/-- Illegal opcode 0x16 (46_privileged_and_illegal.md R191). -/
def execIllop16 (s : State) : Host.Outcome State Fault Refusal := raiseIllegal s

/-- Illegal opcode 0x17 (46_privileged_and_illegal.md R191). -/
def execIllop17 (s : State) : Host.Outcome State Fault Refusal := raiseIllegal s

/-- Illegal opcode 0x1A (46_privileged_and_illegal.md R191). -/
def execIllop1A (s : State) : Host.Outcome State Fault Refusal := raiseIllegal s

/-- Illegal opcode 0x1C (46_privileged_and_illegal.md R191). -/
def execIllop1C (s : State) : Host.Outcome State Fault Refusal := raiseIllegal s

/-- Illegal opcode 0x27 (46_privileged_and_illegal.md R191). -/
def execIllop27 (s : State) : Host.Outcome State Fault Refusal := raiseIllegal s

/-- Illegal opcode 0x2B (46_privileged_and_illegal.md R191). -/
def execIllop2B (s : State) : Host.Outcome State Fault Refusal := raiseIllegal s

/-- Illegal opcode 0x2F (46_privileged_and_illegal.md R191). -/
def execIllop2F (s : State) : Host.Outcome State Fault Refusal := raiseIllegal s

/-- Illegal opcode 0x37 (46_privileged_and_illegal.md R191). -/
def execIllop37 (s : State) : Host.Outcome State Fault Refusal := raiseIllegal s

/-- Illegal opcode 0x3B (46_privileged_and_illegal.md R191). -/
def execIllop3B (s : State) : Host.Outcome State Fault Refusal := raiseIllegal s

/-- Illegal opcode 0x3F (46_privileged_and_illegal.md R191). -/
def execIllop3F (s : State) : Host.Outcome State Fault Refusal := raiseIllegal s

end Sys2Proof.Machine
end

