-- ==== Sys2Proof/Machine/Shift.lean ====
section
/-!
DEFINITION. SHL, SHLC, SHR, SHRC, SRA, SRAC (spec/45_shift.md R180 to R186).
-/

namespace Sys2Proof.Machine

/-- Shift left; zeroes are propagated into the vacated positions (45_shift.md R181). -/
def shiftLeft (a : Word) (n : BitVec 5) : Word := a <<< n.toNat

/-- Logical shift right; zeroes are propagated (45_shift.md R183). -/
def shiftRight (a : Word) (n : BitVec 5) : Word := a >>> n.toNat

/-- Arithmetic shift right; the sign bit is propagated (45_shift.md R185). -/
def shiftRightArith (a : Word) (n : BitVec 5) : Word := a.sshiftRight n.toNat

/-- SHL: the count is the low five bits of Rb (45_shift.md R181). -/
def execShl (ra rb rc : RegNum) (s : State) : Host.Outcome State Fault Refusal :=
  opResult (fun a b => shiftLeft a (countOfWord b)) ra rb rc s

/-- SHLC: the count is the low five bits of the literal (45_shift.md R182). -/
def execShlc (ra : RegNum) (lit : Lit) (rc : RegNum) (s : State) : Host.Outcome State Fault Refusal :=
  .next (s.finish rc (shiftLeft (s.readReg ra) (countOfLit lit)))

/-- SHR: the count is the low five bits of Rb (45_shift.md R183). -/
def execShr (ra rb rc : RegNum) (s : State) : Host.Outcome State Fault Refusal :=
  opResult (fun a b => shiftRight a (countOfWord b)) ra rb rc s

/-- SHRC: the count is the low five bits of the literal (45_shift.md R184). -/
def execShrc (ra : RegNum) (lit : Lit) (rc : RegNum) (s : State) : Host.Outcome State Fault Refusal :=
  .next (s.finish rc (shiftRight (s.readReg ra) (countOfLit lit)))

/-- SRA: the count is the low five bits of Rb (45_shift.md R185). -/
def execSra (ra rb rc : RegNum) (s : State) : Host.Outcome State Fault Refusal :=
  opResult (fun a b => shiftRightArith a (countOfWord b)) ra rb rc s

/-- SRAC: the count is the low five bits of the literal (45_shift.md R186). -/
def execSrac (ra : RegNum) (lit : Lit) (rc : RegNum) (s : State) : Host.Outcome State Fault Refusal :=
  .next (s.finish rc (shiftRightArith (s.readReg ra) (countOfLit lit)))

end Sys2Proof.Machine
end

