-- ==== Sys2Proof/Machine/Dispatch.lean ====
section
/-!
DEFINITION. The dispatch: one arm for each instruction, one call of its meaning.
-/

namespace Sys2Proof.Machine

def exec (i : Instr) (s : State) : Host.Outcome State Fault Refusal :=
  match i with
  | .add ra rb rc => Sys2Proof.Machine.execAdd ra rb rc s
  | .sub ra rb rc => Sys2Proof.Machine.execSub ra rb rc s
  | .mul ra rb rc => Sys2Proof.Machine.execMul ra rb rc s
  | .div ra rb rc => Sys2Proof.Machine.execDiv ra rb rc s
  | .cmpeq ra rb rc => Sys2Proof.Machine.execCmpeq ra rb rc s
  | .cmplt ra rb rc => Sys2Proof.Machine.execCmplt ra rb rc s
  | .cmple ra rb rc => Sys2Proof.Machine.execCmple ra rb rc s
  | .and ra rb rc => Sys2Proof.Machine.execAnd ra rb rc s
  | .or ra rb rc => Sys2Proof.Machine.execOr ra rb rc s
  | .xor ra rb rc => Sys2Proof.Machine.execXor ra rb rc s
  | .shl ra rb rc => Sys2Proof.Machine.execShl ra rb rc s
  | .shr ra rb rc => Sys2Proof.Machine.execShr ra rb rc s
  | .sra ra rb rc => Sys2Proof.Machine.execSra ra rb rc s
  | .addc ra lit rc => Sys2Proof.Machine.execAddc ra lit rc s
  | .subc ra lit rc => Sys2Proof.Machine.execSubc ra lit rc s
  | .mulc ra lit rc => Sys2Proof.Machine.execMulc ra lit rc s
  | .divc ra lit rc => Sys2Proof.Machine.execDivc ra lit rc s
  | .cmpeqc ra lit rc => Sys2Proof.Machine.execCmpeqc ra lit rc s
  | .cmpltc ra lit rc => Sys2Proof.Machine.execCmpltc ra lit rc s
  | .cmplec ra lit rc => Sys2Proof.Machine.execCmplec ra lit rc s
  | .andc ra lit rc => Sys2Proof.Machine.execAndc ra lit rc s
  | .orc ra lit rc => Sys2Proof.Machine.execOrc ra lit rc s
  | .xorc ra lit rc => Sys2Proof.Machine.execXorc ra lit rc s
  | .shlc ra lit rc => Sys2Proof.Machine.execShlc ra lit rc s
  | .shrc ra lit rc => Sys2Proof.Machine.execShrc ra lit rc s
  | .srac ra lit rc => Sys2Proof.Machine.execSrac ra lit rc s
  | .ld ra lit rc => Sys2Proof.Machine.execLd ra lit rc s
  | .st rc lit ra => Sys2Proof.Machine.execSt rc lit ra s
  | .ldr lit rc => Sys2Proof.Machine.execLdr lit rc s
  | .jmp ra rc => Sys2Proof.Machine.execJmp ra rc s
  | .beq ra lit rc => Sys2Proof.Machine.execBeq ra lit rc s
  | .bne ra lit rc => Sys2Proof.Machine.execBne ra lit rc s
  | .priv bits => Sys2Proof.Machine.execPriv bits s
  | .illop01 _ => Sys2Proof.Machine.execIllop01 s
  | .illop02 _ => Sys2Proof.Machine.execIllop02 s
  | .illop03 _ => Sys2Proof.Machine.execIllop03 s
  | .illop04 _ => Sys2Proof.Machine.execIllop04 s
  | .illop05 _ => Sys2Proof.Machine.execIllop05 s
  | .illop06 _ => Sys2Proof.Machine.execIllop06 s
  | .illop07 _ => Sys2Proof.Machine.execIllop07 s
  | .illop08 _ => Sys2Proof.Machine.execIllop08 s
  | .illop09 _ => Sys2Proof.Machine.execIllop09 s
  | .illop0A _ => Sys2Proof.Machine.execIllop0A s
  | .illop0B _ => Sys2Proof.Machine.execIllop0B s
  | .illop0C _ => Sys2Proof.Machine.execIllop0C s
  | .illop0D _ => Sys2Proof.Machine.execIllop0D s
  | .illop0E _ => Sys2Proof.Machine.execIllop0E s
  | .illop0F _ => Sys2Proof.Machine.execIllop0F s
  | .illop10 _ => Sys2Proof.Machine.execIllop10 s
  | .illop11 _ => Sys2Proof.Machine.execIllop11 s
  | .illop12 _ => Sys2Proof.Machine.execIllop12 s
  | .illop13 _ => Sys2Proof.Machine.execIllop13 s
  | .illop14 _ => Sys2Proof.Machine.execIllop14 s
  | .illop15 _ => Sys2Proof.Machine.execIllop15 s
  | .illop16 _ => Sys2Proof.Machine.execIllop16 s
  | .illop17 _ => Sys2Proof.Machine.execIllop17 s
  | .illop1A _ => Sys2Proof.Machine.execIllop1A s
  | .illop1C _ => Sys2Proof.Machine.execIllop1C s
  | .illop27 _ => Sys2Proof.Machine.execIllop27 s
  | .illop2B _ => Sys2Proof.Machine.execIllop2B s
  | .illop2F _ => Sys2Proof.Machine.execIllop2F s
  | .illop37 _ => Sys2Proof.Machine.execIllop37 s
  | .illop3B _ => Sys2Proof.Machine.execIllop3B s
  | .illop3F _ => Sys2Proof.Machine.execIllop3F s

end Sys2Proof.Machine
end

