-- ==== Sys2Proof/Machine/Implementation.lean ====
section
/-!
DEFINITION. The instructions under an implementation's privileged instructions, the parameter PRIV_STEP
(spec/46_privileged_and_illegal.md R190, D15; entry 12).
-/

namespace Sys2Proof.Machine

/-- Execute one instruction under a PRIV_STEP, which PRIV alone takes. With none named this is `exec`. -/
def execWith (implementation : Option PrivilegedMeaning) (i : Instr) (s : State) : Host.Outcome State Fault Refusal :=
  match i with
  | .priv bits => execPrivWith implementation bits s
  | i => exec i s

end Sys2Proof.Machine
end

