-- ==== Sys2Proof/Machine/Step.lean ====
section
/-!
DEFINITION. One step of the machine (00_scope.md R3): the interrupt sequence, or fetch, decode and the complete
execution of one instruction.
-/

namespace Sys2Proof.Machine

/-- Fetch, decode and execute the one instruction at the PC (00_scope.md R3 c). -/
def runInstruction (execute : Instr → State → Host.Outcome State Fault Refusal) (s : State) :
    Host.Outcome State Fault Refusal :=
  orFault s.fetch fun w => execute (decode w) s

/-- One step (00_scope.md R3), with the execution of an instruction given. In supervisor mode interrupts are disabled
and a request stays pending (60_exceptions.md R210, R211). At a user-mode boundary the environment's entry is taken: a
request is served before the instruction at the PC, which is then not executed (R206, R213). -/
def stepBy (execute : Instr → State → Host.Outcome State Fault Refusal) (s : State) :
    Host.Outcome State Fault Refusal :=
  if s.supervisor then runInstruction execute s
  else
    match s.irqRequest with
    | some k => .next (s.passBoundary.takeException (.interrupt k))
    | none => runInstruction execute s.passBoundary

/-- One step of the machine with no implementation of PRIV_STEP named, the spec's default
(46_privileged_and_illegal.md R190, D15; entry 12). -/
def step (s : State) : Host.Outcome State Fault Refusal := stepBy exec s

/-- One step of the machine under a PRIV_STEP (46_privileged_and_illegal.md R190, D15; entry 12). A claim about every
implementation quantifies over the argument; a claim about one names it. -/
def stepWith (implementation : Option PrivilegedMeaning) (s : State) : Host.Outcome State Fault Refusal :=
  stepBy (execWith implementation) s

/-- `s` with the instruction whose bits are `w` stored where the next fetch reads, in the machine's byte order. Nothing
else changes: where that word is aligned and mapped and no interrupt is due (as after reset), the next step runs it. -/
def State.withFetchWord (s : State) (nbits w : Nat) : State :=
  { s with
    mem := Memory.setWord s.platform.byteOrder s.mem (pcAddress s.pc).toNat (BitVec.ofNat 32 (w % 2 ^ nbits)) }

end Sys2Proof.Machine
end

