-- ==== Sys2Proof/Machine/Run.lean ====
section
/-!
DEFINITION. Runs of the machine and where they end: the parameter END_OF_RUN (spec/70_reset_and_hazards.md R246, D20;
entry 17). The architecture has no halt, and no step consults this.
-/

namespace Sys2Proof.Machine

/-- END_OF_RUN, a predicate on states (92_eei_decisions.md D20). A claim about runs names one or quantifies over it; the
spec's convention, its default, is `Safety.endOfRun`. -/
abbrev EndOfRun := State → Bool

/-- The outcome of `n` steps, each by `next`, from a state. A fault or a refusal stands. -/
def stepsFrom (next : State → Host.Outcome State Fault Refusal) : Nat → State → Host.Outcome State Fault Refusal
  | 0, s => .next s
  | n + 1, s =>
    match next s with
    | .next t => stepsFrom next n t
    | .fault f => .fault f
    | .refused r => .refused r

/-- The run from a state under an END_OF_RUN: the final state, which is "the state on first reaching it" (D20), or the
fault or refusal before it. `none` where `n` steps reach neither. -/
def runUntil (next : State → Host.Outcome State Fault Refusal) (ended : EndOfRun) :
    Nat → State → Option (Host.Outcome State Fault Refusal)
  | 0, s => if ended s then some (.next s) else none
  | n + 1, s =>
    if ended s then some (.next s)
    else
      match next s with
      | .next t => runUntil next ended n t
      | .fault f => some (.fault f)
      | .refused r => some (.refused r)

end Sys2Proof.Machine
end

