-- ==== Sys2Proof/Safety.lean ====
section
/-!
DEFINITION. The terms in which claims about the machine are stated: what a state keeps of another, the invariant, the end
of a run, and the instruction words as the spec's rules write them.
-/

namespace Sys2Proof.Safety

open Sys2Proof.Machine

/-! ## Instruction words, as each instruction's rule writes them -/

/-- `m | rc<<21 | ra<<16 | rb<<11` (40_arithmetic.md R111 and every format OP rule). -/
def opWord (m : Word) (rc ra rb : RegNum) : Word :=
  m ||| (rc.setWidth 32 <<< 21) ||| (ra.setWidth 32 <<< 16) ||| (rb.setWidth 32 <<< 11)

/-- `m | rc<<21 | ra<<16 | lit` (40_arithmetic.md R112 and every format OPC rule). -/
def opcWord (m : Word) (rc ra : RegNum) (lit : Lit) : Word :=
  m ||| (rc.setWidth 32 <<< 21) ||| (ra.setWidth 32 <<< 16) ||| lit.setWidth 32

/-! ## What an instruction changes and what it keeps -/

/-- Every byte of memory reads as before. -/
def SameMemory (s t : State) : Prop := ∀ a, Memory.byte? t.mem a = Memory.byte? s.mem a

/-- Every byte of memory outside the four from `n` reads as before. -/
def SameMemoryOutside (n : Nat) (s t : State) : Prop :=
  ∀ a, ¬ (n ≤ a ∧ a < n + 4) → Memory.byte? t.mem a = Memory.byte? s.mem a

/-- The environment's requests and the platform's parameters are as before. -/
def SameSurroundings (s t : State) : Prop := t.irqRequests = s.irqRequests ∧ t.platform = s.platform

/-- Register `rc` holds `v` and every other register what it held. Register 31 reads 0, written or not
(10_state.md R21). -/
def RegistersAfterWrite (s t : State) (rc : RegNum) (v : Word) : Prop :=
  ∀ r, t.readReg r = if r = r31 then 0#32 else if r = rc then v else s.readReg r

/-- Every register holds what it held. -/
def SameRegisters (s t : State) : Prop := ∀ r, t.readReg r = s.readReg r

/-- All that a computation or a load does: `v` in the destination, the updated PC, and nothing else. -/
def Computes (s t : State) (rc : RegNum) (v : Word) : Prop :=
  RegistersAfterWrite s t rc v ∧ t.pc = incPc s.pc ∧ SameMemory s t ∧ SameSurroundings s t

/-- All that a control transfer does: the link value in the destination, the PC at `target`, and nothing else. -/
def Transfers (s t : State) (rc : RegNum) (target : Word) : Prop :=
  RegistersAfterWrite s t rc (incPc s.pc) ∧ t.pc = target ∧ SameMemory s t ∧ SameSurroundings s t

/-- All that exception entry does (60_exceptions.md R204): the updated PC in XP, the Supervisor bit set, the low 31 bits
of the PC at the vector, and nothing else. -/
def EntersException (s t : State) (kind : ExceptionKind) : Prop :=
  RegistersAfterWrite s t xp (incPc s.pc) ∧ t.supervisor = true ∧
    t.pc.toNat % 2 ^ 31 = (vector s.platform kind).toNat % 2 ^ 31 ∧ SameMemory s t ∧ SameSurroundings s t

/-! ## Kinds of instruction -/

/-- The 31 illegal opcodes (30_encoding.md R93). -/
def illegalOpcodes : List Opcode :=
  [0x01#6, 0x02#6, 0x03#6, 0x04#6, 0x05#6, 0x06#6, 0x07#6, 0x08#6, 0x09#6, 0x0A#6, 0x0B#6, 0x0C#6, 0x0D#6,
  0x0E#6, 0x0F#6, 0x10#6, 0x11#6, 0x12#6, 0x13#6, 0x14#6, 0x15#6, 0x16#6, 0x17#6, 0x1A#6, 0x1C#6, 0x27#6,
  0x2B#6, 0x2F#6, 0x37#6, 0x3B#6, 0x3F#6]

/-- The 31 illegal instructions with the same bits 25:0. -/
def illegalInstrs (bits : BitVec 26) : List Instr :=
  [.illop01 bits, .illop02 bits, .illop03 bits, .illop04 bits, .illop05 bits, .illop06 bits, .illop07 bits,
  .illop08 bits, .illop09 bits, .illop0A bits, .illop0B bits, .illop0C bits, .illop0D bits, .illop0E bits,
  .illop0F bits, .illop10 bits, .illop11 bits, .illop12 bits, .illop13 bits, .illop14 bits, .illop15 bits,
  .illop16 bits, .illop17 bits, .illop1A bits, .illop1C bits, .illop27 bits, .illop2B bits, .illop2F bits,
  .illop37 bits, .illop3B bits, .illop3F bits]

/-- The register an instruction names as its destination; ST's `rc` is a source (44_load_store.md R173). -/
def destination : Instr → Option RegNum
  | .add _ _ rc | .addc _ _ rc => some rc
  | .sub _ _ rc | .subc _ _ rc => some rc
  | .mul _ _ rc | .mulc _ _ rc => some rc
  | .div _ _ rc | .divc _ _ rc => some rc
  | .cmpeq _ _ rc | .cmpeqc _ _ rc => some rc
  | .cmplt _ _ rc | .cmpltc _ _ rc => some rc
  | .cmple _ _ rc | .cmplec _ _ rc => some rc
  | .and _ _ rc | .andc _ _ rc => some rc
  | .or _ _ rc | .orc _ _ rc => some rc
  | .xor _ _ rc | .xorc _ _ rc => some rc
  | .shl _ _ rc | .shlc _ _ rc => some rc
  | .shr _ _ rc | .shrc _ _ rc => some rc
  | .sra _ _ rc | .srac _ _ rc => some rc
  | .ld _ _ rc | .ldr _ rc | .beq _ _ rc | .bne _ _ rc | .jmp _ rc => some rc
  | .st _ _ _ | .priv _ => none
  | .illop01 _ | .illop02 _ | .illop03 _ | .illop04 _ | .illop05 _ | .illop06 _ | .illop07 _ | .illop08 _
  | .illop09 _ | .illop0A _ | .illop0B _ | .illop0C _ | .illop0D _ | .illop0E _ | .illop0F _ | .illop10 _
  | .illop11 _ | .illop12 _ | .illop13 _ | .illop14 _ | .illop15 _ | .illop16 _ | .illop17 _ | .illop1A _
  | .illop1C _ | .illop27 _ | .illop2B _ | .illop2F _ | .illop37 _ | .illop3B _ | .illop3F _ => none

/-- The 29 defined instructions that neither load the PC nor read the Supervisor bit into a register: the computations and
the accesses to memory (42_control_transfer.md R140). -/
def modeBlind : Instr → Bool
  | .add _ _ _ | .addc _ _ _ | .sub _ _ _ | .subc _ _ _ | .mul _ _ _ | .mulc _ _ _ | .div _ _ _ | .divc _ _ _
  | .cmpeq _ _ _ | .cmpeqc _ _ _ | .cmplt _ _ _ | .cmpltc _ _ _ | .cmple _ _ _ | .cmplec _ _ _ | .and _ _ _
  | .andc _ _ _ | .or _ _ _ | .orc _ _ _ | .xor _ _ _ | .xorc _ _ _ | .shl _ _ _ | .shlc _ _ _ | .shr _ _ _
  | .shrc _ _ _ | .sra _ _ _ | .srac _ _ _ | .ld _ _ _ | .ldr _ _ | .st _ _ _ => true
  | .beq _ _ _ | .bne _ _ _ | .jmp _ _ | .priv _ | .illop01 _ | .illop02 _ | .illop03 _ | .illop04 _
  | .illop05 _ | .illop06 _ | .illop07 _ | .illop08 _ | .illop09 _ | .illop0A _ | .illop0B _ | .illop0C _
  | .illop0D _ | .illop0E _ | .illop0F _ | .illop10 _ | .illop11 _ | .illop12 _ | .illop13 _ | .illop14 _
  | .illop15 _ | .illop16 _ | .illop17 _ | .illop1A _ | .illop1C _ | .illop27 _ | .illop2B _ | .illop2F _
  | .illop37 _ | .illop3B _ | .illop3F _ => false

/-- Apply a change of state to the next state of an outcome. -/
def mapNext (f : State → State) : Host.Outcome State Fault Refusal → Host.Outcome State Fault Refusal
  | .next s => .next (f s)
  | .fault e => .fault e
  | .refused e => .refused e

/-- The same state in the other mode. -/
def otherMode (s : State) : State := s.setPc (s.pc ^^^ 0x80000000#32)

/-- The same state with other requests of the environment. -/
def withRequests (q : List (Option Nat)) (s : State) : State := { s with irqRequests := q }

/-! ## The invariant -/

/-- `pc[1:0] = 0b00` (10_state.md R26) and the memory is in its canonical form. -/
def Invariant (s : State) : Prop := s.pc.extractLsb' 0 2 = 0#2 ∧ Memory.wf s.mem

/-- No request of the platform's sources stands at the head of the list: the list has run out, its head requests nothing,
or its head names no source of IRQ_SOURCES (60_exceptions.md R211, R212, D14; entries 11, 26). -/
def NoRequestStands (p : Platform) (requests : List (Option Nat)) : Prop :=
  requests = [] ∨ (∃ rest, requests = none :: rest) ∨ (∃ k rest, requests = some k :: rest ∧ p.vecIrq.length ≤ k)

/-- No interrupt is due at this boundary: interrupts are disabled (60_exceptions.md R210), or no request stands. -/
def NoInterruptDue (s : State) : Prop := s.supervisor = true ∨ NoRequestStands s.platform s.irqRequests

/-- The state on which the instruction of this step executes: in user mode the boundary takes one entry of the
environment's requests. -/
def atInstruction (s : State) : State := if s.supervisor then s else withRequests s.irqRequests.tail s

/-! ## The end of a run (70_reset_and_hazards.md R246, D20; entry 17) -/

/-- The word `BEQ (r31, self, r31)`. -/
def selfBranch : Word := 0x77FFFFFF#32

/-- The spec's convention, the default of the parameter END_OF_RUN: the instruction at the PC is the self-branch and no
interrupt can be taken, in supervisor mode, or in user mode with IRQ_SOURCES empty. -/
def endOfRun : EndOfRun := fun s =>
  match s.fetch with
  | .ok w => w == selfBranch && (s.supervisor || s.platform.vecIrq.isEmpty)
  | .error _ => false

end Sys2Proof.Safety
end

