-- ==== Sys2Proof/Certificates/Slice0/Obligations.lean ====
section
/-!
DEFINITION. The statements for the provers. Each says what the Beta does in the terms of Sys2Proof/Safety.lean: the value
in integers, the frame, and that `exec` or `step` answers a next state. Every PC value is written with `incPc`, whose
arithmetic `Obligations.PcArithmeticKeepsSupervisorBit` states once.
-/

open Sys2Proof Sys2Proof.Machine Sys2Proof.Safety

/-! ## Encoding -/

/-- Decoding an encoded instruction gives it back, for every instruction and every value of every field (30_encoding.md R81,
R82, R99). -/
def Obligations.DecodeOfEncode : Prop := ∀ i : Instr, decode (encode i) = i

/-- Encoding a decoded word gives it back exactly where the bits that decode ignores are zero (30_encoding.md R89 to R91;
that they are ignored is the spec's decision D11, entry 8). -/
def Obligations.EncodeOfDecodeOfWellFormed : Prop := ∀ w : Word, encode (decode w) = w ↔ wordWellFormed w = true

/-- "no other bit of the word takes part in selecting the instruction" (30_encoding.md R87). -/
def Obligations.OpcodeAloneSelectsInstruction : Prop := ∀ w : Word, opcodeOf (decode w) = opcodeField w

/-- Words that differ only in bits 10:0 of format OP, in the literal of JMP or in the ra field of LDR decode alike
(30_encoding.md R89 to R91; the spec's decision D11, entry 8). -/
def Obligations.DecodeIgnoresUnusedBits : Prop :=
  ∀ w w' : Word, opcodeField w = opcodeField w' → rcField w = rcField w' →
    (opcodeField w ∈ opOpcodes → raField w = raField w' → rbField w = rbField w' → decode w = decode w') ∧
    (opcodeField w = 0x1B#6 → raField w = raField w' → decode w = decode w') ∧
    (opcodeField w = 0x1F#6 → litField w = litField w' → decode w = decode w')

/-- Words of 95_test_vectors.md sections 2.0 and 2.7, at least one of each family, decode to their instructions. That
0x6C411234 is JMP with its literal ignored and 0x7CA70000 LDR with its ra field ignored is the spec's decision D11
(entry 8); that 0x68000000 is illegal is its decision D22 (entry 18). -/
def Obligations.DecodeOfWrittenWords : Prop :=
  decode 0x80611000#32 = .add 1 2 3 ∧ decode 0xCC41FFFE#32 = .divc 1 0xFFFE 2 ∧
  decode 0xE841FFFF#32 = .xorc 1 0xFFFF 2 ∧ decode 0x98611000#32 = .cmple 1 2 3 ∧
  decode 0xF841001F#32 = .srac 1 0x001F 2 ∧ decode 0x64410008#32 = .st 2 8 1 ∧
  decode 0x7CA70000#32 = .ldr 0 5 ∧ decode 0x7B81FFFB#32 = .bne 1 0xFFFB 28 ∧
  decode 0x6C411234#32 = .jmp 1 2 ∧ decode 0x00000000#32 = .priv 0 ∧ decode 0x68000000#32 = .illop1A 0

/-- The four bytes of a word, in either byte order, decode as the word, and the bytes after them are left
(20_memory.md R54; the byte order is a parameter, entry 1). -/
def Obligations.DecodeOfBytesOfWord : Prop :=
  (∀ (o : ByteOrder) (w : Word) (rest : List Byte), decodeBytes o (wordBytes o w ++ rest) = .ok (decode w, rest)) ∧
  (∀ (o : ByteOrder) (l : List Byte), l.length < 4 → decodeBytes o l = .error .tooShort)

/-- The literal of a reachable label is `((OFFSET(label) - OFFSET(current instruction)) / 4) - 1`, and a branch with it
reaches the label, in either mode; a label that is not reachable has no literal (30_encoding.md R97). -/
def Obligations.LabelLiteralReachesLabel : Prop :=
  (∀ here label : Nat, here < 2 ^ 31 → label < 2 ^ 31 → labelWellFormed here label = true →
    ∃ lit, labelLiteral here label = some lit ∧ 4 * (lit.toInt + 1) = (label : Int) - here ∧
      ∀ pc : Word, pc.toNat % 2 ^ 31 = here →
        (branchTarget pc lit).toNat % 2 ^ 31 = label ∧ (branchTarget pc lit).getLsbD 31 = pc.getLsbD 31) ∧
  (∀ here label : Nat, labelWellFormed here label = false → labelLiteral here label = none)

/-! ## The PC and the registers -/

/-- PC arithmetic works on the low 31 bits and never changes bit 31 (10_state.md R27). That the low bits wrap is the
spec's decision D7 (entry 6). -/
def Obligations.PcArithmeticKeepsSupervisorBit : Prop :=
  (∀ p : Word, (incPc p).getLsbD 31 = p.getLsbD 31 ∧ (incPc p).toNat % 2 ^ 31 = (p.toNat + 4) % 2 ^ 31) ∧
  (∀ p d : Word, (pcRel p d).getLsbD 31 = p.getLsbD 31 ∧ (pcRel p d).toNat % 2 ^ 31 = (p.toNat + d.toNat) % 2 ^ 31)

/-- The fetch and the address of LDR are the same for two PC values that differ in bit 31 only, and the fetch is of the
word at the low 31 bits (10_state.md R28). -/
def Obligations.FetchAndLdrIgnoreSupervisorBit : Prop :=
  (∀ p : Word, (pcAddress p).toNat = p.toNat % 2 ^ 31) ∧
  (∀ s : State, s.fetch = s.readWord (pcAddress s.pc)) ∧
  (∀ (s : State) (p q : Word) (lit : Lit), p.toNat % 2 ^ 31 = q.toNat % 2 ^ 31 →
    (s.setPc p).fetch = (s.setPc q).fetch ∧
    relativeAddress (s.setPc p) lit = relativeAddress (s.setPc q) lit)

/-- Register 31 reads 0 in every state, a write to it changes nothing, and a write to any other register is read back
and leaves the others (10_state.md R20, R21). -/
def Obligations.RegisterThirtyOneIsZeroAndDiscards : Prop :=
  (∀ s : State, s.readReg r31 = 0#32) ∧ (∀ (s : State) (v : Word), s.writeReg r31 v = s) ∧
  (∀ (s : State) (rc : RegNum) (v : Word), RegistersAfterWrite s (s.writeReg rc v) rc v)

/-! ## Arithmetic (40_arithmetic.md) -/

/-- ADD and ADDC write the sum modulo 2^32 (R111, R112). -/
def Obligations.AddAndAddcWriteSum : Prop :=
  (∀ ra rb rc, decode (opWord 0x80000000#32 rc ra rb) = .add ra rb rc) ∧
  (∀ ra lit rc, decode (opcWord 0xC0000000#32 rc ra lit) = .addc ra lit rc) ∧
  (∀ ra rb rc s, ∃ t v, exec (.add ra rb rc) s = .next t ∧ Computes s t rc v ∧
    v.toNat = ((s.readReg ra).toNat + (s.readReg rb).toNat) % 2 ^ 32) ∧
  (∀ ra lit rc s, ∃ t v, exec (.addc ra lit rc) s = .next t ∧ Computes s t rc v ∧
    (v.toNat : Int) = (((s.readReg ra).toNat : Int) + lit.toInt) % 2 ^ 32)

/-- SUB and SUBC write the difference modulo 2^32; the minuend is Ra (R113, R114). -/
def Obligations.SubAndSubcWriteDifference : Prop :=
  (∀ ra rb rc, decode (opWord 0x84000000#32 rc ra rb) = .sub ra rb rc) ∧
  (∀ ra lit rc, decode (opcWord 0xC4000000#32 rc ra lit) = .subc ra lit rc) ∧
  (∀ ra rb rc s, ∃ t v, exec (.sub ra rb rc) s = .next t ∧ Computes s t rc v ∧
    (v.toNat : Int) = (((s.readReg ra).toNat : Int) - ((s.readReg rb).toNat : Int)) % 2 ^ 32) ∧
  (∀ ra lit rc s, ∃ t v, exec (.subc ra lit rc) s = .next t ∧ Computes s t rc v ∧
    (v.toNat : Int) = (((s.readReg ra).toNat : Int) - lit.toInt) % 2 ^ 32)

/-- MUL and MULC write the least significant 32 bits of the product, the same for the signed and the unsigned reading of
the operands (R115, R116). -/
def Obligations.MulAndMulcWriteLowProduct : Prop :=
  (∀ ra rb rc, decode (opWord 0x88000000#32 rc ra rb) = .mul ra rb rc) ∧
  (∀ ra lit rc, decode (opcWord 0xC8000000#32 rc ra lit) = .mulc ra lit rc) ∧
  (∀ ra rb rc s, ∃ t v, exec (.mul ra rb rc) s = .next t ∧ Computes s t rc v ∧
    v.toNat = ((s.readReg ra).toNat * (s.readReg rb).toNat) % 2 ^ 32 ∧
    (v.toNat : Int) = ((s.readReg ra).toInt * (s.readReg rb).toInt) % 2 ^ 32) ∧
  (∀ ra lit rc s, ∃ t v, exec (.mulc ra lit rc) s = .next t ∧ Computes s t rc v ∧
    (v.toNat : Int) = ((s.readReg ra).toInt * lit.toInt) % 2 ^ 32)

/-- DIV and DIVC write the signed quotient `sign(a) * sign(b) * floor(|a| / |b|)`, for a divisor that is not 0, and not
for -2^31 by -1 (R117, R118). Signedness and the direction of truncation are the spec's decision D4 (entry 3). -/
def Obligations.DivAndDivcWriteTruncatedQuotient : Prop :=
  (∀ ra rb rc, decode (opWord 0x8C000000#32 rc ra rb) = .div ra rb rc) ∧
  (∀ ra lit rc, decode (opcWord 0xCC000000#32 rc ra lit) = .divc ra lit rc) ∧
  (∀ ra rb rc s, (s.readReg rb).toInt ≠ 0 → ¬ ((s.readReg ra).toInt = -2 ^ 31 ∧ (s.readReg rb).toInt = -1) →
    ∃ t v, exec (.div ra rb rc) s = .next t ∧ Computes s t rc v ∧
      v.toInt = (s.readReg ra).toInt.sign * (s.readReg rb).toInt.sign *
        (((s.readReg ra).toInt.natAbs / (s.readReg rb).toInt.natAbs : Nat) : Int)) ∧
  (∀ ra lit rc s, lit.toInt ≠ 0 → ¬ ((s.readReg ra).toInt = -2 ^ 31 ∧ lit.toInt = -1) →
    ∃ t v, exec (.divc ra lit rc) s = .next t ∧ Computes s t rc v ∧
      v.toInt = (s.readReg ra).toInt.sign * lit.toInt.sign *
        (((s.readReg ra).toInt.natAbs / lit.toInt.natAbs : Nat) : Int))

/-- DIV and DIVC by 0 and of -2^31 by -1 stop in the fault the spec names where the policy is fault, its decisions D5 and
D6 (entries 4, 5), and go on with some value, of which nothing is said, where it is a free value. -/
def Obligations.DivAndDivcWithoutQuotient : Prop :=
  ∀ (ra rb rc : RegNum) (lit : Lit) (s : State),
    ((s.readReg rb).toInt = 0 → s.platform.divByZero = .fault → exec (.div ra rb rc) s = .fault .divideByZero) ∧
    ((s.readReg rb).toInt = 0 → s.platform.divByZero = .freeValue →
      ∃ t v, exec (.div ra rb rc) s = .next t ∧ Computes s t rc v) ∧
    ((s.readReg ra).toInt = -2 ^ 31 → (s.readReg rb).toInt = -1 → s.platform.divOverflow = .fault →
      exec (.div ra rb rc) s = .fault .divideOverflow) ∧
    ((s.readReg ra).toInt = -2 ^ 31 → (s.readReg rb).toInt = -1 → s.platform.divOverflow = .freeValue →
      ∃ t v, exec (.div ra rb rc) s = .next t ∧ Computes s t rc v) ∧
    (lit.toInt = 0 → s.platform.divByZero = .fault → exec (.divc ra lit rc) s = .fault .divideByZero) ∧
    (lit.toInt = 0 → s.platform.divByZero = .freeValue →
      ∃ t v, exec (.divc ra lit rc) s = .next t ∧ Computes s t rc v) ∧
    ((s.readReg ra).toInt = -2 ^ 31 → lit.toInt = -1 → s.platform.divOverflow = .fault →
      exec (.divc ra lit rc) s = .fault .divideOverflow) ∧
    ((s.readReg ra).toInt = -2 ^ 31 → lit.toInt = -1 → s.platform.divOverflow = .freeValue →
      ∃ t v, exec (.divc ra lit rc) s = .next t ∧ Computes s t rc v)

/-! ## Logical (41_logical.md). Bit `i` of the sign-extended literal is bit `min i 15` of the literal -/

/-- AND and ANDC, bit by bit (R131, R132). -/
def Obligations.AndAndAndcWriteConjunction : Prop :=
  (∀ ra rb rc, decode (opWord 0xA0000000#32 rc ra rb) = .and ra rb rc) ∧
  (∀ ra lit rc, decode (opcWord 0xE0000000#32 rc ra lit) = .andc ra lit rc) ∧
  (∀ ra rb rc s, ∃ t v, exec (.and ra rb rc) s = .next t ∧ Computes s t rc v ∧
    ∀ i < 32, v.getLsbD i = ((s.readReg ra).getLsbD i && (s.readReg rb).getLsbD i)) ∧
  (∀ ra lit rc s, ∃ t v, exec (.andc ra lit rc) s = .next t ∧ Computes s t rc v ∧
    ∀ i < 32, v.getLsbD i = ((s.readReg ra).getLsbD i && lit.getLsbD (min i 15)))

/-- OR and ORC, bit by bit (R133, R134). -/
def Obligations.OrAndOrcWriteDisjunction : Prop :=
  (∀ ra rb rc, decode (opWord 0xA4000000#32 rc ra rb) = .or ra rb rc) ∧
  (∀ ra lit rc, decode (opcWord 0xE4000000#32 rc ra lit) = .orc ra lit rc) ∧
  (∀ ra rb rc s, ∃ t v, exec (.or ra rb rc) s = .next t ∧ Computes s t rc v ∧
    ∀ i < 32, v.getLsbD i = ((s.readReg ra).getLsbD i || (s.readReg rb).getLsbD i)) ∧
  (∀ ra lit rc s, ∃ t v, exec (.orc ra lit rc) s = .next t ∧ Computes s t rc v ∧
    ∀ i < 32, v.getLsbD i = ((s.readReg ra).getLsbD i || lit.getLsbD (min i 15)))

/-- XOR and XORC, bit by bit (R135, R136). -/
def Obligations.XorAndXorcWriteDifferenceOfBits : Prop :=
  (∀ ra rb rc, decode (opWord 0xA8000000#32 rc ra rb) = .xor ra rb rc) ∧
  (∀ ra lit rc, decode (opcWord 0xE8000000#32 rc ra lit) = .xorc ra lit rc) ∧
  (∀ ra rb rc s, ∃ t v, exec (.xor ra rb rc) s = .next t ∧ Computes s t rc v ∧
    ∀ i < 32, v.getLsbD i = ((s.readReg ra).getLsbD i != (s.readReg rb).getLsbD i)) ∧
  (∀ ra lit rc s, ∃ t v, exec (.xorc ra lit rc) s = .next t ∧ Computes s t rc v ∧
    ∀ i < 32, v.getLsbD i = ((s.readReg ra).getLsbD i != lit.getLsbD (min i 15)))

/-! ## Compare (43_compare.md) -/

/-- CMPEQ and CMPEQC write 1 or 0 (R161, R162). -/
def Obligations.CmpeqAndCmpeqcWriteTruth : Prop :=
  (∀ ra rb rc, decode (opWord 0x90000000#32 rc ra rb) = .cmpeq ra rb rc) ∧
  (∀ ra lit rc, decode (opcWord 0xD0000000#32 rc ra lit) = .cmpeqc ra lit rc) ∧
  (∀ ra rb rc s, ∃ t, exec (.cmpeq ra rb rc) s = .next t ∧
    Computes s t rc (if s.readReg ra = s.readReg rb then 1#32 else 0#32)) ∧
  (∀ ra lit rc s, ∃ t, exec (.cmpeqc ra lit rc) s = .next t ∧
    Computes s t rc (if (s.readReg ra).toInt = lit.toInt then 1#32 else 0#32))

/-- CMPLE and CMPLEC write 1 or 0, by the signed order (R163, R164). -/
def Obligations.CmpleAndCmplecWriteSignedOrder : Prop :=
  (∀ ra rb rc, decode (opWord 0x98000000#32 rc ra rb) = .cmple ra rb rc) ∧
  (∀ ra lit rc, decode (opcWord 0xD8000000#32 rc ra lit) = .cmplec ra lit rc) ∧
  (∀ ra rb rc s, ∃ t, exec (.cmple ra rb rc) s = .next t ∧
    Computes s t rc (if (s.readReg ra).toInt ≤ (s.readReg rb).toInt then 1#32 else 0#32)) ∧
  (∀ ra lit rc s, ∃ t, exec (.cmplec ra lit rc) s = .next t ∧
    Computes s t rc (if (s.readReg ra).toInt ≤ lit.toInt then 1#32 else 0#32))

/-- CMPLT and CMPLTC write 1 or 0, by the signed order (R165, R166). -/
def Obligations.CmpltAndCmpltcWriteSignedOrder : Prop :=
  (∀ ra rb rc, decode (opWord 0x94000000#32 rc ra rb) = .cmplt ra rb rc) ∧
  (∀ ra lit rc, decode (opcWord 0xD4000000#32 rc ra lit) = .cmpltc ra lit rc) ∧
  (∀ ra rb rc s, ∃ t, exec (.cmplt ra rb rc) s = .next t ∧
    Computes s t rc (if (s.readReg ra).toInt < (s.readReg rb).toInt then 1#32 else 0#32)) ∧
  (∀ ra lit rc s, ∃ t, exec (.cmpltc ra lit rc) s = .next t ∧
    Computes s t rc (if (s.readReg ra).toInt < lit.toInt then 1#32 else 0#32))

/-! ## Shift (45_shift.md). The count is the second operand modulo 32. That bits 15:5 of a literal are ignored is the spec's
decision D11 (entry 8) -/

/-- SHL and SHLC multiply by a power of two, modulo 2^32 (R181, R182; bits 15:5 of the literal: D11, entry 8). -/
def Obligations.ShlAndShlcShiftLeft : Prop :=
  (∀ ra rb rc, decode (opWord 0xB0000000#32 rc ra rb) = .shl ra rb rc) ∧
  (∀ ra lit rc, decode (opcWord 0xF0000000#32 rc ra lit) = .shlc ra lit rc) ∧
  (∀ ra rb rc s, ∃ t v, exec (.shl ra rb rc) s = .next t ∧ Computes s t rc v ∧
    v.toNat = (s.readReg ra).toNat * 2 ^ ((s.readReg rb).toNat % 32) % 2 ^ 32) ∧
  (∀ ra lit rc s, ∃ t v, exec (.shlc ra lit rc) s = .next t ∧ Computes s t rc v ∧
    v.toNat = (s.readReg ra).toNat * 2 ^ (lit.toNat % 32) % 2 ^ 32)

/-- SHR and SHRC divide the unsigned value by a power of two (R183, R184; bits 15:5 of the literal: D11, entry 8). -/
def Obligations.ShrAndShrcShiftRightLogically : Prop :=
  (∀ ra rb rc, decode (opWord 0xB4000000#32 rc ra rb) = .shr ra rb rc) ∧
  (∀ ra lit rc, decode (opcWord 0xF4000000#32 rc ra lit) = .shrc ra lit rc) ∧
  (∀ ra rb rc s, ∃ t v, exec (.shr ra rb rc) s = .next t ∧ Computes s t rc v ∧
    v.toNat = (s.readReg ra).toNat / 2 ^ ((s.readReg rb).toNat % 32)) ∧
  (∀ ra lit rc s, ∃ t v, exec (.shrc ra lit rc) s = .next t ∧ Computes s t rc v ∧
    v.toNat = (s.readReg ra).toNat / 2 ^ (lit.toNat % 32))

/-- SRA and SRAC divide the signed value by a power of two, toward minus infinity (R185, R186; bits 15:5 of the literal:
D11, entry 8). -/
def Obligations.SraAndSracShiftRightArithmetically : Prop :=
  (∀ ra rb rc, decode (opWord 0xB8000000#32 rc ra rb) = .sra ra rb rc) ∧
  (∀ ra lit rc, decode (opcWord 0xF8000000#32 rc ra lit) = .srac ra lit rc) ∧
  (∀ ra rb rc s, ∃ t v, exec (.sra ra rb rc) s = .next t ∧ Computes s t rc v ∧
    v.toInt = (s.readReg ra).toInt.fdiv (2 ^ ((s.readReg rb).toNat % 32))) ∧
  (∀ ra lit rc s, ∃ t v, exec (.srac ra lit rc) s = .next t ∧ Computes s t rc v ∧
    v.toInt = (s.readReg ra).toInt.fdiv (2 ^ (lit.toNat % 32)))

/-! ## Load and store (44_load_store.md, 20_memory.md) -/

/-- The three kinds of address (20_memory.md R55): all 32 bits for LD and ST (decision D25, entry 19), the low 31 for LDR
(decision D8, entry 6) and the fetch. -/
def Obligations.AddressesPresentedToMemory : Prop :=
  (∀ (s : State) (ra : RegNum) (lit : Lit),
    ((effectiveAddress s ra lit).toNat : Int) = (((s.readReg ra).toNat : Int) + lit.toInt) % 2 ^ 32) ∧
  (∀ (s : State) (lit : Lit),
    ((relativeAddress s lit).toNat : Int) = ((s.pc.toNat : Int) + 4 + 4 * lit.toInt) % 2 ^ 31) ∧
  (∀ p : Word, (pcAddress p).toNat = p.toNat % 2 ^ 31)

/-- Where an access reaches and why it stops (20_memory.md R51, R52; decisions D2 and D16, entries 2 and 13): a multiple
of 4 that is mapped is reached, one that is not mapped stops, and any other address stops or reaches the word below it,
as MISALIGNED_POLICY says. -/
def Obligations.AccessReachesOrStops : Prop :=
  (∀ (p : Platform) (a : Word), mapped p a = true ↔ ∀ r ∈ p.holes, ¬ (r.base ≤ a.toNat ∧ a.toNat < r.base + r.size)) ∧
  (∀ (p : Platform) (a : Word), a.toNat % 4 = 0 → mapped p a = true → accessAt p a = .ok a.toNat) ∧
  (∀ (p : Platform) (a : Word), a.toNat % 4 = 0 → mapped p a = false → accessAt p a = .error .unmappedAccess) ∧
  (∀ (p : Platform) (a : Word), a.toNat % 4 ≠ 0 → p.misaligned = .fault →
    accessAt p a = .error .misalignedAccess) ∧
  (∀ (p : Platform) (a : Word), a.toNat % 4 ≠ 0 → p.misaligned = .clearLowBits →
    accessAt p a = accessAt p (BitVec.ofNat 32 (a.toNat / 4 * 4)))

/-- LD reads the word at its effective address into Rc, where the access reaches a word that holds a value (R171; where it
reaches, `Obligations.AccessReachesOrStops`, rests on decisions D2, D16 and D25, entries 2, 13, 19). -/
def Obligations.LdLoadsWord : Prop :=
  (∀ ra lit rc, decode (opcWord 0x60000000#32 rc ra lit) = .ld ra lit rc) ∧
  (∀ ra lit rc s n w, accessAt s.platform (effectiveAddress s ra lit) = .ok n →
    Memory.word? s.platform.byteOrder s.mem n = some w →
    ∃ t, exec (.ld ra lit rc) s = .next t ∧ Computes s t rc w)

/-- LDR reads the word at its PC-relative address into Rc, whatever its ra field is (R172). The wrap of the address is
decision D8 (entry 6), and MAPPED decision D16 (entry 13). -/
def Obligations.LdrLoadsWord : Prop :=
  (∀ ra lit rc, decode (opcWord 0x7C000000#32 rc ra lit) = .ldr lit rc) ∧
  (∀ lit rc s w, s.pc.toNat % 4 = 0 → mapped s.platform (relativeAddress s lit) = true →
    Memory.word? s.platform.byteOrder s.mem (relativeAddress s lit).toNat = some w →
    ∃ t, exec (.ldr lit rc) s = .next t ∧ Computes s t rc w)

/-- ST writes Rc to the word at its effective address, every other byte of memory and every register staying as it was
(R173; where the access reaches rests on decisions D2, D16 and D25, entries 2, 13, 19). -/
def Obligations.StStoresWord : Prop :=
  (∀ rc lit ra, decode (opcWord 0x64000000#32 rc ra lit) = .st rc lit ra) ∧
  (∀ rc lit ra s n, accessAt s.platform (effectiveAddress s ra lit) = .ok n →
    ∃ t, exec (.st rc lit ra) s = .next t ∧ SameRegisters s t ∧ t.pc = incPc s.pc ∧
      Memory.word? s.platform.byteOrder t.mem n = some (s.readReg rc) ∧ SameMemoryOutside n s t ∧
      SameSurroundings s t)

/-- LD, LDR and ST stop where their access stops, and the loads where a byte of the word was never written. These stops
are the spec's decisions D2, D16 and D18 (entries 2, 13, 15). -/
def Obligations.LoadsAndStoresStop : Prop :=
  (∀ ra lit rc s f, accessAt s.platform (effectiveAddress s ra lit) = .error f →
    exec (.ld ra lit rc) s = .fault f ∧ exec (.st rc lit ra) s = .fault f) ∧
  (∀ ra lit rc s n, accessAt s.platform (effectiveAddress s ra lit) = .ok n →
    Memory.word? s.platform.byteOrder s.mem n = none → exec (.ld ra lit rc) s = .fault .unwrittenMemory) ∧
  (∀ lit rc s, s.pc.toNat % 4 = 0 → mapped s.platform (relativeAddress s lit) = false →
    exec (.ldr lit rc) s = .fault .unmappedAccess) ∧
  (∀ lit rc s, s.pc.toNat % 4 = 0 → mapped s.platform (relativeAddress s lit) = true →
    Memory.word? s.platform.byteOrder s.mem (relativeAddress s lit).toNat = none →
    exec (.ldr lit rc) s = .fault .unwrittenMemory)

/-- After ST, a read or a fetch at its address answers the word stored, and a read of any other word answers what it
answered before (20_memory.md R59, R62; that a fetch sees it at once is decision D9, entry 16). -/
def Obligations.StoreIsSeenByLoadAndFetch : Prop :=
  ∀ rc lit ra s t, exec (.st rc lit ra) s = .next t →
    ∃ n, accessAt s.platform (effectiveAddress s ra lit) = .ok n ∧
      t.readWord (effectiveAddress s ra lit) = .ok (s.readReg rc) ∧
      (∀ p : Word, pcAddress p = effectiveAddress s ra lit → (t.setPc p).fetch = .ok (s.readReg rc)) ∧
      (∀ a m, accessAt s.platform a = .ok m → m ≠ n → t.readWord a = s.readWord a)

/-! ## Control transfer (42_control_transfer.md) -/

/-- BEQ and BNE write the updated PC to Rc, and go to `pc + 4 + 4 * literal` where Ra is zero, respectively not, else to
the updated PC; the Supervisor bit stays (R141, R142). Ra is read before Rc is written also where they are one register:
decision D10 (entry 7). The wrap of the target is decision D7 (entry 6). -/
def Obligations.BeqAndBneBranch : Prop :=
  (∀ ra lit rc, decode (opcWord 0x74000000#32 rc ra lit) = .beq ra lit rc) ∧
  (∀ ra lit rc, decode (opcWord 0x78000000#32 rc ra lit) = .bne ra lit rc) ∧
  (∀ ra lit rc s, ∃ t u target, exec (.beq ra lit rc) s = .next t ∧ exec (.bne ra lit rc) s = .next u ∧
    Transfers s t rc (if s.readReg ra = 0#32 then target else incPc s.pc) ∧
    Transfers s u rc (if s.readReg ra = 0#32 then incPc s.pc else target) ∧
    target.getLsbD 31 = s.pc.getLsbD 31 ∧
    ((target.toNat % 2 ^ 31 : Nat) : Int) = ((s.pc.toNat : Int) + 4 + 4 * lit.toInt) % 2 ^ 31)

/-- JMP writes the updated PC to Rc and goes to the old value of Ra with its low two bits masked; the new Supervisor bit is
the old one AND bit 31 of Ra (R143). That any literal decodes to it is the spec's decision D11 (entry 8). -/
def Obligations.JmpJumpsThroughRegister : Prop :=
  (∀ ra rc lit, decode (opcWord 0x6C000000#32 rc ra lit) = .jmp ra rc) ∧
  (∀ ra rc s, ∃ t target, exec (.jmp ra rc) s = .next t ∧ Transfers s t rc target ∧
    target.getLsbD 31 = (s.pc.getLsbD 31 && (s.readReg ra).getLsbD 31) ∧
    target.toNat % 2 ^ 31 = (s.readReg ra).toNat % 2 ^ 31 / 4 * 4)

/-! ## Exceptions, interrupts and modes (46_privileged_and_illegal.md, 60_exceptions.md) -/

/-- Exception entry from user mode: XP receives the updated PC, whose bit 31 is 0, the Supervisor bit is set, the low 31
bits of the PC are the vector's, and nothing else changes (60_exceptions.md R204). The vector of each kind is the
platform's parameter for that kind, four times the number held there (60_exceptions.md R208): a parameter, and a multiple
of 4, by the spec's decision D12 (entry 9). -/
def Obligations.ExceptionEntrySavesAndVectors : Prop :=
  (∀ (s : State) (kind : ExceptionKind), s.supervisor = false →
    EntersException s (s.takeException kind) kind ∧ ((s.takeException kind).readReg xp).getLsbD 31 = false ∧
      (s.takeException kind).readReg xp = incPc s.pc) ∧
  (∀ p : Platform, (vector p .illegalInstruction).toNat = 4 * p.vecIllegal.toNat) ∧
  (∀ (p : Platform) (k : Nat) (h : k < p.vecIrq.length), (vector p (.interrupt k)).toNat = 4 * p.vecIrq[k].toNat)

/-- Every word with opcode 0x00 is PRIV, which takes the illegal instruction exception in user mode; in supervisor mode it
is refused, the spec's default for PRIV_STEP (R190, decision D15, entry 12). What it does under a PRIV_STEP is
`Obligations.PrivStepIsTheImplementations`. -/
def Obligations.PrivTrapsInUserMode : Prop :=
  (∀ w : Word, w.toNat < 0x04000000 → ∃ bits, decode w = .priv bits ∧ bits.toNat = w.toNat) ∧
  (∀ bits s, s.supervisor = false →
    ∃ t, exec (.priv bits) s = .next t ∧ EntersException s t .illegalInstruction) ∧
  (∀ bits s, s.supervisor = true → exec (.priv bits) s = .refused (.privilegedUndefined bits))

/-- The 31 illegal opcodes decode to the 31 illegal instructions and nothing else does; each takes the illegal instruction
exception in user mode and stops in supervisor mode (R191, decisions D22 and D13, entries 18 and 10). -/
def Obligations.IllegalOpcodesTrapInUserMode : Prop :=
  (∀ w : Word, decode w ∈ illegalInstrs (bitsField w) ↔ opcodeField w ∈ illegalOpcodes) ∧
  (∀ bits s, ∀ i ∈ illegalInstrs bits, s.supervisor = false →
    ∃ t, exec i s = .next t ∧ EntersException s t .illegalInstruction) ∧
  (∀ bits s, ∀ i ∈ illegalInstrs bits, s.supervisor = true → exec i s = .fault .supervisorException)

/-- Where no interrupt is due and the fetch answers a word, the step is `exec` of the decoded word: at this very state in
supervisor mode, and with one entry of the environment's requests taken in user mode (00_scope.md R3). Where the fetch
stops, the step stops. In user mode no interrupt is due exactly where the list of requests has run out, or its head
requests nothing, or its head names no source (60_exceptions.md R211; decision D14, entries 11 and 26). -/
def Obligations.StepExecutesDecodedInstruction : Prop :=
  (∀ s w, NoInterruptDue s → s.pc.toNat % 4 = 0 → mapped s.platform (pcAddress s.pc) = true →
    Memory.word? s.platform.byteOrder s.mem (pcAddress s.pc).toNat = some w →
    step s = exec (decode w) (atInstruction s)) ∧
  (∀ s f, NoInterruptDue s → s.fetch = .error f → step s = .fault f)

/-- In user mode a request of one of IRQ_SOURCES is served before the instruction at the PC, whatever that is, which is
not executed: exception entry with the updated PC in XP (60_exceptions.md R206, R211, R213; the environment as a list of
requests is decision D14, entry 11). -/
def Obligations.InterruptIsServedInUserMode : Prop :=
  ∀ (s : State) (k : Nat) (rest : List (Option Nat)), s.supervisor = false → s.irqRequests = some k :: rest →
    k < s.platform.vecIrq.length →
    ∃ t, step s = .next t ∧ EntersException (withRequests rest s) t (.interrupt k)

/-- "While in supervisor mode, interrupts are disabled" (60_exceptions.md R210): a step in supervisor mode is the same
whatever the environment requests, and leaves the requests as they stand (R211; the environment as a list of requests is
decision D14, entry 11). -/
def Obligations.SupervisorModeHoldsRequests : Prop :=
  ∀ (s : State) (q : List (Option Nat)), s.supervisor = true →
    step (withRequests q s) = mapNext (withRequests q) (step s) ∧
    (∀ t, step s = .next t → t.irqRequests = s.irqRequests)

/-- A handler that has kept XP returns with `JMP (XP, r31)` to the instruction after the one that trapped, in user mode,
and restores nothing else (60_exceptions.md R205, R214). -/
def Obligations.ReturnFromTrapResumesAfterIt : Prop :=
  ∀ (s u : State) (kind : ExceptionKind), s.supervisor = false → s.pc.toNat % 4 = 0 → u.supervisor = true →
    u.readReg xp = (s.takeException kind).readReg xp →
    ∃ t, exec (.jmp xp r31) u = .next t ∧ t.pc = incPc s.pc ∧ t.supervisor = false ∧ SameRegisters u t ∧
      SameMemory u t ∧ SameSurroundings u t

/-- A handler that has kept XP returns with `SUBC (XP, 4, XP)` and `JMP (XP, r31)` to the interrupted instruction, in user
mode (60_exceptions.md R206). It holds below the last instruction of the address space: there XP has wrapped to 0 (the
spec's decision D7, entry 6), and XP - 4 has bit 31 set. -/
def Obligations.ReturnFromInterruptResumesIt : Prop :=
  ∀ (s u : State) (k : Nat), s.supervisor = false → s.pc.toNat % 4 = 0 → s.pc.toNat ≠ 0x7FFFFFFC →
    u.supervisor = true → u.readReg xp = (s.takeException (.interrupt k)).readReg xp →
    ∃ u' t, exec (.subc xp 4 xp) u = .next u' ∧ exec (.jmp xp r31) u' = .next t ∧ t.pc = s.pc ∧
      (∀ r, r ≠ xp → t.readReg r = u.readReg r) ∧ SameMemory u t ∧ SameSurroundings u t

/-- Supervisor mode is entered only by an exception, and left only by JMP through a register whose bit 31 is clear; the
processor starts in supervisor mode (60_exceptions.md R219). -/
def Obligations.ModeChangesOnlyByExceptionAndJmp : Prop :=
  (∀ s t, step s = .next t → s.supervisor = false → t.supervisor = true →
    ∃ kind, EntersException (withRequests s.irqRequests.tail s) t kind) ∧
  (∀ s t, step s = .next t → s.supervisor = true → t.supervisor = false →
    ∃ w ra rc, s.fetch = .ok w ∧ decode w = .jmp ra rc ∧ (s.readReg ra).getLsbD 31 = false) ∧
  (∀ p regs m q, (State.powerUp p regs m q).supervisor = true)

/-! ## The whole machine -/

/-- Memory changes only by ST, and then only in the word at its address (20_memory.md R66, decision D19, entry 16;
44_load_store.md R170). -/
def Obligations.MemoryChangesOnlyByStore : Prop :=
  ∀ s t, step s = .next t → SameMemory s t ∨
    ∃ w rc lit ra n, s.fetch = .ok w ∧ decode w = .st rc lit ra ∧
      accessAt s.platform (effectiveAddress s ra lit) = .ok n ∧
      Memory.word? s.platform.byteOrder t.mem n = some (s.readReg rc) ∧ SameMemoryOutside n s t

/-- Only BEQ, BNE, JMP and exception entry load the PC with anything but the updated PC (42_control_transfer.md R140,
10_state.md R25); exception entry here is that of the illegal instruction (decision D22, entry 18). -/
def Obligations.OnlyControlTransfersLoadThePc : Prop :=
  ∀ i s t, exec i s = .next t → t.pc = incPc s.pc ∨ (∃ ra lit rc, i = .beq ra lit rc ∨ i = .bne ra lit rc) ∨
    (∃ ra rc, i = .jmp ra rc) ∨ (s.supervisor = false ∧ EntersException s t .illegalInstruction)

/-- An instruction changes no register but its destination, and XP where it takes an exception (40_arithmetic.md R110,
41_logical.md R130, 42_control_transfer.md R140, 43_compare.md R160, 45_shift.md R180, 44_load_store.md R171 to R173,
46_privileged_and_illegal.md R190 and R191; 60_exceptions.md R204). -/
def Obligations.RegistersChangeOnlyAtDestination : Prop :=
  ∀ i s t r, exec i s = .next t → destination i ≠ some r → t.readReg r = s.readReg r ∨
    (r = xp ∧ s.supervisor = false ∧ EntersException s t .illegalInstruction)

/-- No step changes the platform's parameters (entry 21), and the environment's requests lose at most their head, in user
mode (entry 11). The same of the step under every PRIV_STEP, which is the model's choice (entry 27). Both fields are the
model's own. -/
def Obligations.StepKeepsPlatformAndRequests : Prop :=
  (∀ s t, step s = .next t → t.platform = s.platform ∧
    t.irqRequests = if s.supervisor then s.irqRequests else s.irqRequests.tail) ∧
  (∀ implementation s t, stepWith implementation s = .next t → t.platform = s.platform ∧
    t.irqRequests = if s.supervisor then s.irqRequests else s.irqRequests.tail)

/-- The computations and the accesses to memory do in one mode exactly what they do in the other, stops included: only the
Supervisor bit of the PC, which they keep, tells the two next states apart (60_exceptions.md R218, 40_arithmetic.md R110). -/
def Obligations.ComputationsAreBlindToTheMode : Prop :=
  ∀ i s, modeBlind i = true → exec i (otherMode s) = mapNext otherMode (exec i s)

/-- Every step keeps the invariant: the PC is a multiple of 4 (10_state.md R26, with vectors that are, decision D12,
entry 9) and the memory is in its canonical form, the model's own. -/
def Obligations.StepKeepsInvariant : Prop := ∀ s t, Invariant s → step s = .next t → Invariant t

/-- The invariant holds after reset, with any memory image in canonical form. The form is the model's own; `State.reset`'s
empty image is its choice (entry 15). -/
def Obligations.InvariantHoldsAfterReset : Prop :=
  (∀ p regs m q, Memory.wf m → Invariant (State.powerUp p regs m q)) ∧ Invariant State.reset

/-- After reset the PC is 0x80000000, supervisor mode at address 0, and nothing else is initialised: whatever the registers
and the memory held, they hold (70_reset_and_hazards.md R240). `State.reset` is one such state; which one is the model's
choice (entries 14, 15, 20, 23), and nothing here rests on it. -/
def Obligations.ResetStartsInSupervisorModeAtZero : Prop :=
  (∀ p regs m q, (State.powerUp p regs m q).pc = 0x80000000#32 ∧ (State.powerUp p regs m q).supervisor = true ∧
    (pcAddress (State.powerUp p regs m q).pc).toNat = 0 ∧ (State.powerUp p regs m q).mem = m ∧
    (State.powerUp p regs m q).readReg r31 = 0#32 ∧
    ∀ (r : RegNum) (h : r.toNat < 31), (State.powerUp p regs m q).readReg r = regs[r.toNat]) ∧
  (∃ p regs m q, State.reset = State.powerUp p regs m q)

/-- The spec's convention for the end of a run holds exactly where the instruction at the PC is 0x77FFFFFF,
`BEQ (r31, self, r31)`, in supervisor mode, or in user mode with no interrupt source; and there the step leaves the whole
programmer-visible state, the parameters and the convention as they are, under every PRIV_STEP. The environment's requests,
the model's own field, lose their head in user mode (entry 11); where there is none to lose, and in supervisor mode, the
state is a fixed point outright (70_reset_and_hazards.md R246; the convention is decision D20, entry 17). -/
def Obligations.EndOfRunIsAFixedPoint : Prop :=
  (∀ s, endOfRun s = true ↔ s.fetch = .ok 0x77FFFFFF#32 ∧ (s.supervisor = true ∨ s.platform.vecIrq = [])) ∧
  (∀ implementation s, endOfRun s = true → stepWith implementation s = .next (atInstruction s)) ∧
  (∀ s, endOfRun s = true → step s = .next (atInstruction s)) ∧
  (∀ s, endOfRun s = true → endOfRun (atInstruction s) = true ∧ (atInstruction s).visible = s.visible ∧
    (atInstruction s).platform = s.platform) ∧
  (∀ s, endOfRun s = true → (s.supervisor = true ∨ s.irqRequests = []) → step s = .next s)

/-! ## Under an implementation's privileged instructions (46_privileged_and_illegal.md R190; PRIV_STEP, decision D15,
entry 12) -/

/-- PRIV_STEP is a parameter that PRIV alone takes, in supervisor mode: under a named implementation PRIV leaves the
programmer-visible state the implementation says, in the same surroundings (entry 27), and a word it does not define is a fault; in user mode PRIV takes the illegal instruction exception
whatever the implementation; with none named every instruction is as `exec` has it (R190; decisions D15 and D13,
entries 12 and 10). -/
def Obligations.PrivStepIsTheImplementations : Prop :=
  (∀ implementation i s, (∀ bits, i ≠ .priv bits) → execWith implementation i s = exec i s) ∧
  (∀ i s, execWith none i s = exec i s) ∧
  (∀ implementation bits s, s.supervisor = false →
    ∃ t, execWith implementation (.priv bits) s = .next t ∧ EntersException s t .illegalInstruction) ∧
  (∀ (meaning : PrivilegedMeaning) bits s v, s.supervisor = true → meaning bits s.visible = some v →
    ∃ t, execWith (some meaning) (.priv bits) s = .next t ∧ t.visible = v ∧ SameSurroundings s t) ∧
  (∀ (meaning : PrivilegedMeaning) bits s, s.supervisor = true → meaning bits s.visible = none →
    execWith (some meaning) (.priv bits) s = .fault .supervisorException)

/-- No implementation is seen in user mode, nor in supervisor mode at a word whose opcode is not 0x00: there the step under
it is the step. In supervisor mode at a word with opcode 0x00 the step is what the implementation says of bits 25:0
(R190, decision D15, entry 12). -/
def Obligations.ImplementationIsSeenOnlyByPrivileged : Prop :=
  (∀ s, stepWith none s = step s) ∧
  (∀ implementation s, s.supervisor = false → stepWith implementation s = step s) ∧
  (∀ implementation s f, s.fetch = .error f → stepWith implementation s = step s) ∧
  (∀ implementation s w, s.fetch = .ok w → opcodeField w ≠ 0x00#6 → stepWith implementation s = step s) ∧
  (∀ (meaning : PrivilegedMeaning) s w v, s.supervisor = true → s.fetch = .ok w → opcodeField w = 0x00#6 →
    meaning (bitsField w) s.visible = some v →
    ∃ t, stepWith (some meaning) s = .next t ∧ t.visible = v ∧ SameSurroundings s t) ∧
  (∀ (meaning : PrivilegedMeaning) s w, s.supervisor = true → s.fetch = .ok w → opcodeField w = 0x00#6 →
    meaning (bitsField w) s.visible = none → stepWith (some meaning) s = .fault .supervisorException)

/-- Under every implementation whose privileged instructions keep the invariant, every step keeps it (10_state.md R26, with
vectors that are multiples of 4, decision D12, entry 9; PRIV_STEP: decision D15, entry 12). -/
def Obligations.StepUnderImplementationKeepsInvariant : Prop :=
  ∀ implementation : Option PrivilegedMeaning,
    (∀ meaning, implementation = some meaning → ∀ bits s v, s.supervisor = true → Invariant s →
      meaning bits s.visible = some v → Invariant (s.withVisible v)) →
    ∀ s t, Invariant s → stepWith implementation s = .next t → Invariant t

/-! ## Runs and their end (70_reset_and_hazards.md R246; END_OF_RUN, decision D20, entry 17) -/

/-- END_OF_RUN is a parameter: under any predicate on states and any PRIV_STEP, a run ends in `t` within `n` steps exactly
where some number of steps, at most `n`, leads to `t`, which meets the predicate, and no state before it does; and what a
run has come to, more steps do not change, so that the final state is well defined (70_reset_and_hazards.md R246;
"the final state is the state on first reaching it" is decision D20, entry 17). -/
def Obligations.RunEndsAtTheFirstStateOfEndOfRun : Prop :=
  (∀ (implementation : Option PrivilegedMeaning) (ended : EndOfRun) n s t,
    runUntil (stepWith implementation) ended n s = some (.next t) ↔
      ∃ k, k ≤ n ∧ stepsFrom (stepWith implementation) k s = .next t ∧ ended t = true ∧
        ∀ j, j < k → ∃ u, stepsFrom (stepWith implementation) j s = .next u ∧ ended u = false) ∧
  (∀ (implementation : Option PrivilegedMeaning) (ended : EndOfRun) n m s r, n ≤ m →
    runUntil (stepWith implementation) ended n s = some r → runUntil (stepWith implementation) ended m s = some r)

/-- Once a state meets the spec's convention for the end of a run, every later state exists and has the same
programmer-visible state, whatever the requests and the PRIV_STEP: "every later state is identical"
(70_reset_and_hazards.md R246; the convention is decision D20, entry 17). -/
def Obligations.NothingVisibleChangesAfterEndOfRun : Prop :=
  ∀ (implementation : Option PrivilegedMeaning) s n, endOfRun s = true →
    ∃ t, stepsFrom (stepWith implementation) n s = .next t ∧ t.visible = s.visible ∧ endOfRun t = true

/-! ## The mode under an implementation's privileged instructions (60_exceptions.md R219; entry 28) -/

/-- Under every PRIV_STEP, supervisor mode is entered only by an exception, and it is left only by JMP or by a word of opcode
0x00 for which the implementation says so. Under one that never clears the Supervisor bit, only JMP leaves it
(10_state.md R29, 60_exceptions.md R219). That an implementation may clear the bit is the model's choice (entry 28). -/
def Obligations.SupervisorModeIsLeftByJmpOrTheImplementation : Prop :=
  (∀ implementation s t, stepWith implementation s = .next t → s.supervisor = false → t.supervisor = true →
    ∃ kind, EntersException (withRequests s.irqRequests.tail s) t kind) ∧
  (∀ implementation s t, stepWith implementation s = .next t → s.supervisor = true → t.supervisor = false →
    ∃ w, s.fetch = .ok w ∧
      ((∃ ra rc, decode w = .jmp ra rc ∧ (s.readReg ra).getLsbD 31 = false) ∨
       (opcodeField w = 0x00#6 ∧ ∃ meaning v, implementation = some meaning ∧
          meaning (bitsField w) s.visible = some v ∧ v.pc.getLsbD 31 = false ∧ t = s.withVisible v))) ∧
  (∀ meaning : PrivilegedMeaning,
    (∀ bits u v, u.pc.getLsbD 31 = true → meaning bits u = some v → v.pc.getLsbD 31 = true) →
    ∀ s t, stepWith (some meaning) s = .next t → s.supervisor = true → t.supervisor = false →
      ∃ w ra rc, s.fetch = .ok w ∧ decode w = .jmp ra rc ∧ (s.readReg ra).getLsbD 31 = false)
end

