-- ==== Sys2Proof/Laws/PerInstr.lean ====
section
/-!
SUPPORT. The statements that are made instruction by instruction: one lemma for each constructor.
-/

namespace Sys2Proof.Laws.EncodedOpcode

/-- The opcode field of an encoded instruction is the instruction's opcode: no operand reaches bits 31:26. -/
def Statement (i : Instr) : Prop := opcodeField (encode i) = opcodeOf i

/-- The opcode field of six bits put before twenty-six others. -/
theorem opcodeField_append (op : Opcode) (b : BitVec 26) : opcodeField (op ++ b) = op := by
  apply BitVec.eq_of_getLsbD_eq
  intro i hi
  rw [opcodeField, BitVec.getLsbD_extractLsb',
    show (op ++ b : Word).getLsbD (26 + i) = (HAppend.hAppend op b : BitVec (6 + 26)).getLsbD (26 + i) from rfl,
    BitVec.getLsbD_append]
  simp [hi]

theorem add (ra rb rc : RegNum) : Statement (.add ra rb rc) := opcodeField_append _ _
theorem sub (ra rb rc : RegNum) : Statement (.sub ra rb rc) := opcodeField_append _ _
theorem mul (ra rb rc : RegNum) : Statement (.mul ra rb rc) := opcodeField_append _ _
theorem div (ra rb rc : RegNum) : Statement (.div ra rb rc) := opcodeField_append _ _
theorem cmpeq (ra rb rc : RegNum) : Statement (.cmpeq ra rb rc) := opcodeField_append _ _
theorem cmplt (ra rb rc : RegNum) : Statement (.cmplt ra rb rc) := opcodeField_append _ _
theorem cmple (ra rb rc : RegNum) : Statement (.cmple ra rb rc) := opcodeField_append _ _
theorem and (ra rb rc : RegNum) : Statement (.and ra rb rc) := opcodeField_append _ _
theorem or (ra rb rc : RegNum) : Statement (.or ra rb rc) := opcodeField_append _ _
theorem xor (ra rb rc : RegNum) : Statement (.xor ra rb rc) := opcodeField_append _ _
theorem shl (ra rb rc : RegNum) : Statement (.shl ra rb rc) := opcodeField_append _ _
theorem shr (ra rb rc : RegNum) : Statement (.shr ra rb rc) := opcodeField_append _ _
theorem sra (ra rb rc : RegNum) : Statement (.sra ra rb rc) := opcodeField_append _ _
theorem addc (ra : RegNum) (lit : Lit) (rc : RegNum) : Statement (.addc ra lit rc) := opcodeField_append _ _
theorem subc (ra : RegNum) (lit : Lit) (rc : RegNum) : Statement (.subc ra lit rc) := opcodeField_append _ _
theorem mulc (ra : RegNum) (lit : Lit) (rc : RegNum) : Statement (.mulc ra lit rc) := opcodeField_append _ _
theorem divc (ra : RegNum) (lit : Lit) (rc : RegNum) : Statement (.divc ra lit rc) := opcodeField_append _ _
theorem cmpeqc (ra : RegNum) (lit : Lit) (rc : RegNum) : Statement (.cmpeqc ra lit rc) := opcodeField_append _ _
theorem cmpltc (ra : RegNum) (lit : Lit) (rc : RegNum) : Statement (.cmpltc ra lit rc) := opcodeField_append _ _
theorem cmplec (ra : RegNum) (lit : Lit) (rc : RegNum) : Statement (.cmplec ra lit rc) := opcodeField_append _ _
theorem andc (ra : RegNum) (lit : Lit) (rc : RegNum) : Statement (.andc ra lit rc) := opcodeField_append _ _
theorem orc (ra : RegNum) (lit : Lit) (rc : RegNum) : Statement (.orc ra lit rc) := opcodeField_append _ _
theorem xorc (ra : RegNum) (lit : Lit) (rc : RegNum) : Statement (.xorc ra lit rc) := opcodeField_append _ _
theorem shlc (ra : RegNum) (lit : Lit) (rc : RegNum) : Statement (.shlc ra lit rc) := opcodeField_append _ _
theorem shrc (ra : RegNum) (lit : Lit) (rc : RegNum) : Statement (.shrc ra lit rc) := opcodeField_append _ _
theorem srac (ra : RegNum) (lit : Lit) (rc : RegNum) : Statement (.srac ra lit rc) := opcodeField_append _ _
theorem ld (ra : RegNum) (lit : Lit) (rc : RegNum) : Statement (.ld ra lit rc) := opcodeField_append _ _
theorem st (rc : RegNum) (lit : Lit) (ra : RegNum) : Statement (.st rc lit ra) := opcodeField_append _ _
theorem ldr (lit : Lit) (rc : RegNum) : Statement (.ldr lit rc) := opcodeField_append _ _
theorem jmp (ra rc : RegNum) : Statement (.jmp ra rc) := opcodeField_append _ _
theorem beq (ra : RegNum) (lit : Lit) (rc : RegNum) : Statement (.beq ra lit rc) := opcodeField_append _ _
theorem bne (ra : RegNum) (lit : Lit) (rc : RegNum) : Statement (.bne ra lit rc) := opcodeField_append _ _
theorem priv (bits : BitVec 26) : Statement (.priv bits) := opcodeField_append _ _
theorem illop01 (bits : BitVec 26) : Statement (.illop01 bits) := opcodeField_append _ _
theorem illop02 (bits : BitVec 26) : Statement (.illop02 bits) := opcodeField_append _ _
theorem illop03 (bits : BitVec 26) : Statement (.illop03 bits) := opcodeField_append _ _
theorem illop04 (bits : BitVec 26) : Statement (.illop04 bits) := opcodeField_append _ _
theorem illop05 (bits : BitVec 26) : Statement (.illop05 bits) := opcodeField_append _ _
theorem illop06 (bits : BitVec 26) : Statement (.illop06 bits) := opcodeField_append _ _
theorem illop07 (bits : BitVec 26) : Statement (.illop07 bits) := opcodeField_append _ _
theorem illop08 (bits : BitVec 26) : Statement (.illop08 bits) := opcodeField_append _ _
theorem illop09 (bits : BitVec 26) : Statement (.illop09 bits) := opcodeField_append _ _
theorem illop0A (bits : BitVec 26) : Statement (.illop0A bits) := opcodeField_append _ _
theorem illop0B (bits : BitVec 26) : Statement (.illop0B bits) := opcodeField_append _ _
theorem illop0C (bits : BitVec 26) : Statement (.illop0C bits) := opcodeField_append _ _
theorem illop0D (bits : BitVec 26) : Statement (.illop0D bits) := opcodeField_append _ _
theorem illop0E (bits : BitVec 26) : Statement (.illop0E bits) := opcodeField_append _ _
theorem illop0F (bits : BitVec 26) : Statement (.illop0F bits) := opcodeField_append _ _
theorem illop10 (bits : BitVec 26) : Statement (.illop10 bits) := opcodeField_append _ _
theorem illop11 (bits : BitVec 26) : Statement (.illop11 bits) := opcodeField_append _ _
theorem illop12 (bits : BitVec 26) : Statement (.illop12 bits) := opcodeField_append _ _
theorem illop13 (bits : BitVec 26) : Statement (.illop13 bits) := opcodeField_append _ _
theorem illop14 (bits : BitVec 26) : Statement (.illop14 bits) := opcodeField_append _ _
theorem illop15 (bits : BitVec 26) : Statement (.illop15 bits) := opcodeField_append _ _
theorem illop16 (bits : BitVec 26) : Statement (.illop16 bits) := opcodeField_append _ _
theorem illop17 (bits : BitVec 26) : Statement (.illop17 bits) := opcodeField_append _ _
theorem illop1A (bits : BitVec 26) : Statement (.illop1A bits) := opcodeField_append _ _
theorem illop1C (bits : BitVec 26) : Statement (.illop1C bits) := opcodeField_append _ _
theorem illop27 (bits : BitVec 26) : Statement (.illop27 bits) := opcodeField_append _ _
theorem illop2B (bits : BitVec 26) : Statement (.illop2B bits) := opcodeField_append _ _
theorem illop2F (bits : BitVec 26) : Statement (.illop2F bits) := opcodeField_append _ _
theorem illop37 (bits : BitVec 26) : Statement (.illop37 bits) := opcodeField_append _ _
theorem illop3B (bits : BitVec 26) : Statement (.illop3B bits) := opcodeField_append _ _
theorem illop3F (bits : BitVec 26) : Statement (.illop3F bits) := opcodeField_append _ _

end Sys2Proof.Laws.EncodedOpcode
end

