-- ==== Sys2Proof/Laws/Fields.lean ====
section
/-!
SUPPORT. What each field of an instruction word is, where the word is an opcode put before twenty-six operand bits.
-/

namespace Sys2Proof

/-- Every bit of an opcode put before twenty-six operand bits. -/
theorem getLsbD_word (op : Opcode) (b : BitVec 26) (i : Nat) :
    (op ++ b : Word).getLsbD i = if i < 26 then b.getLsbD i else op.getLsbD (i - 26) := by
  rw [show (op ++ b : Word).getLsbD i = (HAppend.hAppend op b : BitVec (6 + 26)).getLsbD i from rfl,
    BitVec.getLsbD_append]

/-- Every bit of the operand bits of format OPC (30_encoding.md R82). -/
theorem getLsbD_opcFields (rc ra : RegNum) (lit : Lit) (i : Nat) :
    (opcFields rc ra lit).getLsbD i =
      if i < 16 then lit.getLsbD i else if i < 21 then ra.getLsbD (i - 16) else rc.getLsbD (i - 21) := by
  rw [show (opcFields rc ra lit).getLsbD i =
      (HAppend.hAppend (HAppend.hAppend rc ra : BitVec (5 + 5)) lit : BitVec (5 + 5 + 16)).getLsbD i from rfl,
    BitVec.getLsbD_append, BitVec.getLsbD_append]
  by_cases h : i < 16
  · simp [h]
  · by_cases h2 : i < 21
    · simp [h, h2, show i - 16 < 5 by omega]
    · simp [h, h2, show ¬ i - 16 < 5 by omega, show i - 16 - 5 = i - 21 by omega]

/-- Every bit of the operand bits of format OP (30_encoding.md R81). -/
theorem getLsbD_opFields (rc ra rb : RegNum) (i : Nat) :
    (opFields rc ra rb).getLsbD i =
      if i < 11 then false else if i < 16 then rb.getLsbD (i - 11)
      else if i < 21 then ra.getLsbD (i - 16) else rc.getLsbD (i - 21) := by
  rw [show (opFields rc ra rb).getLsbD i =
      (HAppend.hAppend (HAppend.hAppend (HAppend.hAppend rc ra : BitVec (5 + 5)) rb : BitVec (5 + 5 + 5)) (0#11) :
        BitVec (5 + 5 + 5 + 11)).getLsbD i from rfl,
    BitVec.getLsbD_append, BitVec.getLsbD_append, BitVec.getLsbD_append]
  by_cases h : i < 11
  · simp [h]
  · by_cases h2 : i < 16
    · simp [h, h2, show i - 11 < 5 by omega]
    · by_cases h3 : i < 21
      · simp [h, h2, h3, show ¬ i - 11 < 5 by omega, show i - 16 < 5 by omega, show i - 11 - 5 = i - 16 by omega]
      · simp [h, h2, h3, show ¬ i - 11 < 5 by omega, show ¬ i - 11 - 5 < 5 by omega,
          show i - 11 - 5 - 5 = i - 21 by omega]

@[simp] theorem bitsField_word (op : Opcode) (b : BitVec 26) : bitsField (op ++ b : Word) = b := by
  apply BitVec.eq_of_getLsbD_eq
  intro i hi
  simp [bitsField, getLsbD_word, hi]

@[simp] theorem rcField_opc (op : Opcode) (rc ra : RegNum) (lit : Lit) :
    rcField (op ++ opcFields rc ra lit : Word) = rc := by
  apply BitVec.eq_of_getLsbD_eq
  intro i hi
  simp only [rcField, BitVec.getLsbD_extractLsb', getLsbD_word, getLsbD_opcFields]
  simp [hi, show 21 + i < 26 by omega, show ¬ 21 + i < 16 by omega]

@[simp] theorem raField_opc (op : Opcode) (rc ra : RegNum) (lit : Lit) :
    raField (op ++ opcFields rc ra lit : Word) = ra := by
  apply BitVec.eq_of_getLsbD_eq
  intro i hi
  simp only [raField, BitVec.getLsbD_extractLsb', getLsbD_word, getLsbD_opcFields]
  simp [hi, show 16 + i < 26 by omega, show 16 + i < 21 by omega]

@[simp] theorem litField_opc (op : Opcode) (rc ra : RegNum) (lit : Lit) :
    litField (op ++ opcFields rc ra lit : Word) = lit := by
  apply BitVec.eq_of_getLsbD_eq
  intro i hi
  simp only [litField, BitVec.getLsbD_extractLsb', getLsbD_word, getLsbD_opcFields]
  simp [hi, show i < 26 by omega]

@[simp] theorem rcField_op (op : Opcode) (rc ra rb : RegNum) :
    rcField (op ++ opFields rc ra rb : Word) = rc := by
  apply BitVec.eq_of_getLsbD_eq
  intro i hi
  simp only [rcField, BitVec.getLsbD_extractLsb', getLsbD_word, getLsbD_opFields]
  simp [hi, show 21 + i < 26 by omega, show ¬ 21 + i < 16 by omega, show ¬ 21 + i < 11 by omega]

@[simp] theorem raField_op (op : Opcode) (rc ra rb : RegNum) :
    raField (op ++ opFields rc ra rb : Word) = ra := by
  apply BitVec.eq_of_getLsbD_eq
  intro i hi
  simp only [raField, BitVec.getLsbD_extractLsb', getLsbD_word, getLsbD_opFields]
  simp [hi, show 16 + i < 26 by omega, show 16 + i < 21 by omega, show ¬ 16 + i < 11 by omega]

@[simp] theorem rbField_op (op : Opcode) (rc ra rb : RegNum) :
    rbField (op ++ opFields rc ra rb : Word) = rb := by
  apply BitVec.eq_of_getLsbD_eq
  intro i hi
  simp only [rbField, BitVec.getLsbD_extractLsb', getLsbD_word, getLsbD_opFields]
  simp [hi, show 11 + i < 26 by omega, show 11 + i < 16 by omega]

end Sys2Proof
end

