-- ==== Sys2Proof/Laws/Memory.lean ====
section
/-!
SUPPORT. The laws of the memory: what a byte and a word read after a write, and that every write keeps the canonical
form.
-/

namespace Sys2Proof

/-- The bytes of a word put together again give the word, in either byte order. -/
@[simp] theorem wordOf_byteOf (o : ByteOrder) (w : Word) :
    wordOf o (byteOf o w 0) (byteOf o w 1) (byteOf o w 2) (byteOf o w 3) = w := by
  have h : w.extractLsb' 24 8 ++ w.extractLsb' 16 8 ++ w.extractLsb' 8 8 ++ w.extractLsb' 0 8 = w := by
    apply BitVec.eq_of_getLsbD_eq
    intro i hi
    simp only [BitVec.getLsbD_append, BitVec.getLsbD_extractLsb']
    by_cases h1 : i < 8
    · simp [h1]
    · by_cases h2 : i - 8 < 8
      · simp [h1, h2, show 8 + (i - 8) = i by omega]
      · by_cases h3 : i - 8 - 8 < 8
        · simp [h1, h2, h3, show 16 + (i - 8 - 8) = i by omega]
        · simp [h1, h2, h3, show 24 + (i - 8 - 8 - 8) = i by omega, show i - 8 - 8 - 8 < 8 by omega]
  cases o <;> exact h

end Sys2Proof

namespace Sys2Proof.Machine

/-! ## One byte -/

/-- Every byte after the write of one. -/
theorem Memory.byte?_setByte (m : Memory) (a b : Nat) (v : Byte) :
    Memory.byte? (m.setByte a v) b = if b = a then some v else Memory.byte? m b := by
  induction m with
  | nil => simp [Memory.setByte, Memory.byte?, eq_comm]
  | cons c m ih =>
    obtain ⟨k, w⟩ := c
    simp only [Memory.setByte]
    split
    · simp [Memory.byte?, eq_comm]
    · split
      · rename_i h; subst h; simp only [Memory.byte?, eq_comm (a := a)]; split <;> rfl
      · rename_i h1 h2
        simp only [Memory.byte?, ih]
        by_cases hk : k = b
        · simp [hk, show b ≠ a from fun e => h2 (e ▸ hk.symm)]
        · simp [hk]

/-- The addresses listed after the write of one byte. -/
theorem Memory.mem_keys_setByte (m : Memory) (a x : Nat) (v : Byte)
    (h : x ∈ (m.setByte a v).map Prod.fst) : x = a ∨ x ∈ m.map Prod.fst := by
  induction m with
  | nil => simp [Memory.setByte] at h; exact .inl h
  | cons c m ih =>
    obtain ⟨k, w⟩ := c
    simp only [Memory.setByte] at h
    split at h
    · simpa using h
    · split at h
      · rename_i he; subst he; exact .inr (by simpa using h)
      · simp only [List.map_cons, List.mem_cons] at h ⊢
        rcases h with h | h
        · exact .inr (.inl h)
        · rcases ih h with h | h
          · exact .inl h
          · exact .inr (.inr h)

/-- The write of a byte inside the address space keeps the canonical form. -/
theorem Memory.setByte_wf (m : Memory) (a : Nat) (v : Byte) (h : m.wf) (ha : a < 2 ^ 32) : (m.setByte a v).wf := by
  refine ⟨?_, fun x hx => ?_⟩
  · have h := h.1
    induction m with
    | nil => simp [Memory.setByte]
    | cons c m ih =>
      obtain ⟨k, w⟩ := c
      simp only [List.map_cons, List.pairwise_cons] at h
      simp only [Memory.setByte]
      split
      · rename_i hlt
        simp only [List.map_cons, List.pairwise_cons, List.mem_cons]
        exact ⟨fun x hx => hx.elim (fun e => e ▸ hlt) (fun e => lt_trans hlt (h.1 x e)), h⟩
      · split
        · rename_i he; subst he; simpa using h
        · rename_i h1 h2
          simp only [List.map_cons, List.pairwise_cons]
          refine ⟨fun x hx => ?_, ih ⟨h.2, fun y hy => ?_⟩ h.2⟩
          · rcases Memory.mem_keys_setByte m a x v hx with rfl | hx
            · omega
            · exact h.1 x hx
          · rename_i hm; exact hm.2 y (by simp only [List.map_cons, List.mem_cons]; exact .inr hy)
  · rcases Memory.mem_keys_setByte m a x v hx with rfl | hx
    · exact ha
    · exact h.2 x hx

/-- The empty memory is in canonical form. -/
theorem Memory.wf_nil : Memory.wf [] := by simp [Memory.wf]

/-! ## One word -/

/-- Every byte after the write of a word. -/
theorem Memory.byte?_setWord (o : ByteOrder) (m : Memory) (a b : Nat) (v : Word) :
    Memory.byte? (m.setWord o a v) b =
      if b = a + 3 then some (byteOf o v 3) else if b = a + 2 then some (byteOf o v 2)
      else if b = a + 1 then some (byteOf o v 1) else if b = a then some (byteOf o v 0)
      else Memory.byte? m b := by
  simp only [Memory.setWord, Memory.byte?_setByte]

/-- A byte outside the word written reads as before. -/
theorem Memory.byte?_setWord_outside (o : ByteOrder) (m : Memory) (a b : Nat) (v : Word)
    (h : ¬ (a ≤ b ∧ b < a + 4)) : Memory.byte? (m.setWord o a v) b = Memory.byte? m b := by
  rw [Memory.byte?_setWord, if_neg (by omega), if_neg (by omega), if_neg (by omega), if_neg (by omega)]

/-- A word reads as it was written. -/
@[simp] theorem Memory.word?_setWord (o : ByteOrder) (m : Memory) (a : Nat) (v : Word) :
    Memory.word? o (m.setWord o a v) a = some v := by
  simp [Memory.word?, Memory.byte?_setWord]

/-- A word whose four bytes lie outside the word written reads as before. -/
theorem Memory.word?_setWord_other (o : ByteOrder) (m : Memory) (a b : Nat) (v : Word)
    (h : b + 4 ≤ a ∨ a + 4 ≤ b) : Memory.word? o (m.setWord o a v) b = Memory.word? o m b := by
  simp only [Memory.word?]
  rw [Memory.byte?_setWord_outside _ _ _ _ _ (by omega), Memory.byte?_setWord_outside _ _ _ _ _ (by omega),
    Memory.byte?_setWord_outside _ _ _ _ _ (by omega), Memory.byte?_setWord_outside _ _ _ _ _ (by omega)]

/-- The write of a word inside the address space keeps the canonical form. -/
theorem Memory.setWord_wf (o : ByteOrder) (m : Memory) (a : Nat) (v : Word) (h : m.wf) (ha : a + 3 < 2 ^ 32) :
    (m.setWord o a v).wf := by
  unfold Memory.setWord
  exact Memory.setByte_wf _ _ _ (Memory.setByte_wf _ _ _ (Memory.setByte_wf _ _ _
    (Memory.setByte_wf _ _ _ h (by omega)) (by omega)) (by omega)) (by omega)

end Sys2Proof.Machine
end

