-- ==== Sys2Proof/Laws/State.lean ====
section
/-!
SUPPORT. The small lemmas of the state: one per field per update, and what a register reads after a write.
-/

namespace Sys2Proof.Machine

/-! ## setPc -/

@[simp] theorem State.setPc_pc (s : State) (v : Word) : (s.setPc v).pc = v := rfl
@[simp] theorem State.setPc_regs (s : State) (v : Word) : (s.setPc v).regs = s.regs := rfl
@[simp] theorem State.setPc_mem (s : State) (v : Word) : (s.setPc v).mem = s.mem := rfl
@[simp] theorem State.setPc_irqRequests (s : State) (v : Word) : (s.setPc v).irqRequests = s.irqRequests := rfl
@[simp] theorem State.setPc_platform (s : State) (v : Word) : (s.setPc v).platform = s.platform := rfl
@[simp] theorem State.setPc_readReg (s : State) (v : Word) (r : RegNum) : (s.setPc v).readReg r = s.readReg r := rfl

/-! ## The programmer-visible part -/

@[simp] theorem State.visible_regs (s : State) : s.visible.regs = s.regs := rfl
@[simp] theorem State.visible_pc (s : State) : s.visible.pc = s.pc := rfl
@[simp] theorem State.visible_mem (s : State) : s.visible.mem = s.mem := rfl
@[simp] theorem State.withVisible_regs (s : State) (v : Visible) : (s.withVisible v).regs = v.regs := rfl
@[simp] theorem State.withVisible_pc (s : State) (v : Visible) : (s.withVisible v).pc = v.pc := rfl
@[simp] theorem State.withVisible_mem (s : State) (v : Visible) : (s.withVisible v).mem = v.mem := rfl
@[simp] theorem State.withVisible_irqRequests (s : State) (v : Visible) :
    (s.withVisible v).irqRequests = s.irqRequests := rfl
@[simp] theorem State.withVisible_platform (s : State) (v : Visible) : (s.withVisible v).platform = s.platform := rfl
@[simp] theorem State.withVisible_visible (s : State) (v : Visible) : (s.withVisible v).visible = v := rfl
@[simp] theorem State.withVisible_self (s : State) : s.withVisible s.visible = s := rfl

/-! ## A new memory -/

@[simp] theorem State.withMem_readReg (s : State) (m : Memory) (r : RegNum) :
    ({ s with mem := m } : State).readReg r = s.readReg r := rfl
@[simp] theorem State.withMem_supervisor (s : State) (m : Memory) :
    ({ s with mem := m } : State).supervisor = s.supervisor := rfl

/-! ## writeReg -/

@[simp] theorem State.writeReg_pc (s : State) (r : RegNum) (v : Word) : (s.writeReg r v).pc = s.pc := by
  unfold State.writeReg; split <;> rfl
@[simp] theorem State.writeReg_mem (s : State) (r : RegNum) (v : Word) : (s.writeReg r v).mem = s.mem := by
  unfold State.writeReg; split <;> rfl
@[simp] theorem State.writeReg_irqRequests (s : State) (r : RegNum) (v : Word) :
    (s.writeReg r v).irqRequests = s.irqRequests := by
  unfold State.writeReg; split <;> rfl
@[simp] theorem State.writeReg_platform (s : State) (r : RegNum) (v : Word) :
    (s.writeReg r v).platform = s.platform := by
  unfold State.writeReg; split <;> rfl

theorem regNum_lt_31_iff (r : RegNum) : r.toNat < 31 ↔ r ≠ r31 := by
  constructor
  · rintro h rfl; simp at h
  · intro h
    have : r.toNat ≠ 31 := fun e => h (BitVec.eq_of_toNat_eq (by simpa using e))
    have := r.isLt
    omega

/-- Register 31 reads as 0 (10_state.md R21). -/
@[simp] theorem State.readReg_r31 (s : State) : s.readReg r31 = 0#32 := by simp [State.readReg]

/-- A write to register 31 is discarded (10_state.md R21). -/
@[simp] theorem State.writeReg_r31 (s : State) (v : Word) : s.writeReg r31 v = s := by simp [State.writeReg]

/-- Every register after a write. -/
theorem State.readReg_writeReg (s : State) (rc r : RegNum) (v : Word) :
    (s.writeReg rc v).readReg r = if r = r31 then 0#32 else if r = rc then v else s.readReg r := by
  by_cases hr : r = r31
  · simp [hr]
  · rw [if_neg hr]
    have hlt := (regNum_lt_31_iff r).2 hr
    by_cases hc : rc.toNat < 31
    · by_cases he : r = rc
      · subst he; simp [State.readReg, State.writeReg, hlt]
      · have hne : rc.toNat ≠ r.toNat := fun e => he (BitVec.eq_of_toNat_eq e.symm)
        simp [State.readReg, State.writeReg, hlt, hc, he, hne]
    · have he : rc = r31 := by by_contra h; exact hc ((regNum_lt_31_iff rc).2 h)
      simp [he, hr]

/-! ## advance, finish, passBoundary -/

@[simp] theorem State.advance_pc (s : State) : s.advance.pc = incPc s.pc := rfl
@[simp] theorem State.advance_mem (s : State) : s.advance.mem = s.mem := rfl
@[simp] theorem State.advance_irqRequests (s : State) : s.advance.irqRequests = s.irqRequests := rfl
@[simp] theorem State.advance_platform (s : State) : s.advance.platform = s.platform := rfl
@[simp] theorem State.advance_readReg (s : State) (r : RegNum) : s.advance.readReg r = s.readReg r := rfl

@[simp] theorem State.finish_pc (s : State) (rc : RegNum) (v : Word) : (s.finish rc v).pc = incPc s.pc := by
  simp [State.finish]
@[simp] theorem State.finish_mem (s : State) (rc : RegNum) (v : Word) : (s.finish rc v).mem = s.mem := by
  simp [State.finish]
@[simp] theorem State.finish_irqRequests (s : State) (rc : RegNum) (v : Word) :
    (s.finish rc v).irqRequests = s.irqRequests := by simp [State.finish]
@[simp] theorem State.finish_platform (s : State) (rc : RegNum) (v : Word) :
    (s.finish rc v).platform = s.platform := by simp [State.finish]
theorem State.readReg_finish (s : State) (rc r : RegNum) (v : Word) :
    (s.finish rc v).readReg r = if r = r31 then 0#32 else if r = rc then v else s.readReg r := by
  simp [State.finish, State.readReg_writeReg]

@[simp] theorem State.passBoundary_pc (s : State) : s.passBoundary.pc = s.pc := rfl
@[simp] theorem State.passBoundary_mem (s : State) : s.passBoundary.mem = s.mem := rfl
@[simp] theorem State.passBoundary_platform (s : State) : s.passBoundary.platform = s.platform := rfl
@[simp] theorem State.passBoundary_irqRequests (s : State) : s.passBoundary.irqRequests = s.irqRequests.tail := rfl
@[simp] theorem State.passBoundary_supervisor (s : State) : s.passBoundary.supervisor = s.supervisor := rfl
@[simp] theorem State.passBoundary_readReg (s : State) (r : RegNum) : s.passBoundary.readReg r = s.readReg r := rfl

/-! ## takeException and returnThrough -/

@[simp] theorem State.takeException_pc (s : State) (k : ExceptionKind) :
    (s.takeException k).pc = 1#1 ++ (vector s.platform k).extractLsb' 0 31 := rfl
@[simp] theorem State.takeException_mem (s : State) (k : ExceptionKind) : (s.takeException k).mem = s.mem := by
  simp [State.takeException]
@[simp] theorem State.takeException_irqRequests (s : State) (k : ExceptionKind) :
    (s.takeException k).irqRequests = s.irqRequests := by simp [State.takeException]
@[simp] theorem State.takeException_platform (s : State) (k : ExceptionKind) :
    (s.takeException k).platform = s.platform := by simp [State.takeException]

@[simp] theorem State.returnThrough_pc (s : State) (v : Word) : (s.returnThrough v).pc = jumpPc s.pc v := rfl
@[simp] theorem State.returnThrough_mem (s : State) (v : Word) : (s.returnThrough v).mem = s.mem := rfl
@[simp] theorem State.returnThrough_irqRequests (s : State) (v : Word) :
    (s.returnThrough v).irqRequests = s.irqRequests := rfl
@[simp] theorem State.returnThrough_platform (s : State) (v : Word) :
    (s.returnThrough v).platform = s.platform := rfl
@[simp] theorem State.returnThrough_readReg (s : State) (v : Word) (r : RegNum) :
    (s.returnThrough v).readReg r = s.readReg r := rfl

/-! ## powerUp -/

@[simp] theorem State.powerUp_pc (p : Platform) (regs : Vector Word 31) (m : Memory) (q : List (Option Nat)) :
    (State.powerUp p regs m q).pc = 0x80000000#32 := rfl
@[simp] theorem State.powerUp_mem (p : Platform) (regs : Vector Word 31) (m : Memory) (q : List (Option Nat)) :
    (State.powerUp p regs m q).mem = m := rfl

end Sys2Proof.Machine
end

