-- ==== Sys2Proof/Laws/Ops.lean ====
section
/-!
SUPPORT. For each shared operation, one lemma that says once everything it can do.
-/

namespace Sys2Proof.Machine

open Sys2Proof.Safety

/-! ## The PC -/

/-- Bit 31 of one bit put before thirty-one others. -/
theorem join_bit31 (a : BitVec 1) (b : BitVec 31) : (a ++ b : Word).getLsbD 31 = a.getLsbD 0 := by
  rw [show (a ++ b : Word).getLsbD 31 = (HAppend.hAppend a b : BitVec (1 + 31)).getLsbD 31 from rfl,
    BitVec.getLsbD_append]
  simp

/-- The low 31 bits of one bit put before thirty-one others. -/
theorem join_low (a : BitVec 1) (b : BitVec 31) : (a ++ b : Word).extractLsb' 0 31 = b := by
  apply BitVec.eq_of_getLsbD_eq
  intro i hi
  rw [BitVec.getLsbD_extractLsb',
    show (a ++ b : Word).getLsbD (0 + i) = (HAppend.hAppend a b : BitVec (1 + 31)).getLsbD (0 + i) from rfl,
    BitVec.getLsbD_append]
  simp [hi]

theorem bit31_low (p : Word) : (p.extractLsb' 31 1).getLsbD 0 = p.getLsbD 31 := by simp

/-- A word is its bit 31 and its low 31 bits. -/
theorem word_ext {a b : Word} (h : a.getLsbD 31 = b.getLsbD 31) (hl : a.extractLsb' 0 31 = b.extractLsb' 0 31) :
    a = b := by
  apply BitVec.eq_of_getLsbD_eq
  intro i hi
  by_cases h31 : i = 31
  · exact h31 ▸ h
  · have := congrArg (·.getLsbD i) hl
    simpa [BitVec.getLsbD_extractLsb', show i < 31 by omega] using this

/-- The Supervisor bit survives the increment (10_state.md R27). -/
theorem incPc_bit31 (p : Word) : (incPc p).getLsbD 31 = p.getLsbD 31 := (join_bit31 _ _).trans (bit31_low p)

/-- The Supervisor bit survives a displacement (10_state.md R27). -/
theorem pcRel_bit31 (p d : Word) : (pcRel p d).getLsbD 31 = p.getLsbD 31 := (join_bit31 _ _).trans (bit31_low p)

/-- The low 31 bits after the increment. -/
theorem incPc_low (p : Word) : (incPc p).extractLsb' 0 31 = p.extractLsb' 0 31 + 4#31 := join_low _ _

/-- The low 31 bits after a displacement. -/
theorem pcRel_low (p d : Word) : (pcRel p d).extractLsb' 0 31 = p.extractLsb' 0 31 + d.extractLsb' 0 31 := join_low _ _

/-- The address a PC value presents has bit 31 zero (10_state.md R28). -/
theorem pcAddress_bit31 (p : Word) : (pcAddress p).getLsbD 31 = false := join_bit31 _ _

/-- The low 31 bits of the address a PC value presents. -/
theorem pcAddress_low (p : Word) : (pcAddress p).extractLsb' 0 31 = p.extractLsb' 0 31 := join_low _ _

/-- What JMP makes of the Supervisor bit: old AND bit 31 of the target (42_control_transfer.md R143). -/
theorem jumpPc_bit31 (p t : Word) : (jumpPc p t).getLsbD 31 = (p.getLsbD 31 && t.getLsbD 31) := by
  refine (join_bit31 _ _).trans ?_
  rw [BitVec.getLsbD_and, bit31_low, bit31_low]

/-- The low 31 bits that JMP loads (42_control_transfer.md R143). -/
theorem jumpPc_low (p t : Word) : (jumpPc p t).extractLsb' 0 31 = (t &&& 0xFFFFFFFC#32).extractLsb' 0 31 := join_low _ _

/-- An address is a multiple of 4 exactly when its two low bits are 0. -/
theorem aligned_iff (a : Word) : a.extractLsb' 0 2 = 0#2 ↔ a.toNat % 4 = 0 := by
  constructor
  · intro h
    have := congrArg BitVec.toNat h
    simpa [BitVec.extractLsb'_toNat] using this
  · intro h
    apply BitVec.eq_of_toNat_eq
    simpa [BitVec.extractLsb'_toNat] using h

/-- The increment keeps a multiple of 4. -/
theorem incPc_aligned {p : Word} (h : p.extractLsb' 0 2 = 0#2) : (incPc p).extractLsb' 0 2 = 0#2 := by
  rw [aligned_iff] at h ⊢
  have := congrArg BitVec.toNat (incPc_low p)
  simp only [BitVec.extractLsb'_toNat, BitVec.toNat_add, BitVec.toNat_ofNat, Nat.shiftRight_zero] at this
  omega

/-! ## What the ends of the meanings do -/

/-- Writing a register and nothing else: every register afterwards. -/
theorem writeReg_registers (s : State) (rc : RegNum) (v : Word) : RegistersAfterWrite s (s.writeReg rc v) rc v :=
  fun r => State.readReg_writeReg s rc r v

/-- Everything `finish` does. -/
theorem finish_computes (s : State) (rc : RegNum) (v : Word) : Computes s (s.finish rc v) rc v := by
  refine ⟨fun r => State.readReg_finish s rc r v, by simp, fun a => by simp, by simp, by simp⟩

/-- Everything `branch` does (42_control_transfer.md R141, R142). -/
theorem branch_transfers (taken : Bool) (lit : Lit) (rc : RegNum) (s : State) :
    Transfers s (branch taken lit rc s) rc (if taken then branchTarget s.pc lit else incPc s.pc) := by
  refine ⟨fun r => ?_, rfl, fun a => ?_, ?_, ?_⟩
  · exact State.readReg_writeReg s rc r _
  all_goals simp [branch]

/-- Everything JMP does (42_control_transfer.md R143). -/
theorem jump_transfers (ra rc : RegNum) (s : State) :
    Transfers s ((s.writeReg rc (incPc s.pc)).returnThrough (s.readReg ra)) rc (jumpPc s.pc (s.readReg ra)) := by
  refine ⟨fun r => ?_, by simp, fun a => by simp, by simp, by simp⟩
  simpa using State.readReg_writeReg s rc r (incPc s.pc)

/-! ## Exceptions -/

/-- The register, memory and surroundings part of exception entry, and its PC (60_exceptions.md R204). -/
theorem takeException_registers (s : State) (k : ExceptionKind) :
    RegistersAfterWrite s (s.takeException k) xp (incPc s.pc) := by
  intro r
  simpa [State.takeException] using State.readReg_writeReg s xp r (incPc s.pc)

theorem takeException_supervisor (s : State) (k : ExceptionKind) : (s.takeException k).supervisor = true := by
  exact join_bit31 _ _

/-- Everything exception entry does. -/
theorem takeException_enters (s : State) (k : ExceptionKind) : EntersException s (s.takeException k) k := by
  refine ⟨takeException_registers s k, takeException_supervisor s k, ?_, fun a => by simp, by simp, by simp⟩
  have h : (s.takeException k).pc.extractLsb' 0 31 = (vector s.platform k).extractLsb' 0 31 :=
    join_low _ _
  have := congrArg BitVec.toNat h
  simpa [BitVec.extractLsb'_toNat] using this

/-- What raising the illegal instruction exception can do: by mode, the entry or the stop. -/
theorem raiseIllegal_cases (s : State) :
    (s.supervisor = false ∧ raiseIllegal s = .next (s.takeException .illegalInstruction)) ∨
      (s.supervisor = true ∧ raiseIllegal s = .fault .supervisorException) := by
  cases h : s.supervisor <;> simp [raiseIllegal, h]

/-! ## Memory accesses -/

/-- `orFault` answers a next state only through its continuation. -/
theorem orFault_next {α : Type} {r : Except Fault α} {f : α → Host.Outcome State Fault Refusal} {t : State} :
    orFault r f = .next t ↔ ∃ a, r = .ok a ∧ f a = .next t := by
  cases r <;> simp [orFault]

theorem orFault_fault {α : Type} {r : Except Fault α} {f : α → Host.Outcome State Fault Refusal} {e : Fault} :
    orFault r f = .fault e ↔ r = .error e ∨ ∃ a, r = .ok a ∧ f a = .fault e := by
  cases r <;> simp [orFault]

/-- Where an access answers an address, that address is a multiple of 4 and its word lies in the address space. -/
theorem accessAt_ok {p : Platform} {a : Word} {n : Nat} (h : accessAt p a = .ok n) : n % 4 = 0 ∧ n + 3 < 2 ^ 32 := by
  have hlow : ∀ b : Word, b.extractLsb' 0 2 = 0#2 → b.toNat % 4 = 0 ∧ b.toNat + 3 < 2 ^ 32 := fun b hb => by
    have := (aligned_iff b).1 hb
    have := b.isLt
    omega
  have hmask : (a &&& 0xFFFFFFFC#32).extractLsb' 0 2 = 0#2 := by
    apply BitVec.eq_of_getLsbD_eq
    intro i hi
    have : i = 0 ∨ i = 1 := by omega
    rcases this with rfl | rfl <;> simp
  unfold accessAt wordAddress at h
  split at h
  · cases h
  · rename_i b hb
    split at h
    · cases h
      split at hb
      · cases hb; exact hlow _ (by assumption)
      · split at hb
        · cases hb
        · cases hb; exact hlow _ hmask
    · cases h

/-- An access at a multiple of 4 that is mapped reaches it. -/
theorem accessAt_aligned {p : Platform} {a : Word} (ha : a.extractLsb' 0 2 = 0#2) (hm : mapped p a = true) :
    accessAt p a = .ok a.toNat := by
  simp [accessAt, wordAddress, ha, hm]

/-- Everything a read can answer. -/
theorem readWord_ok {s : State} {a w : Word} :
    s.readWord a = .ok w ↔
      ∃ n, accessAt s.platform a = .ok n ∧ Memory.word? s.platform.byteOrder s.mem n = some w := by
  unfold State.readWord
  cases accessAt s.platform a with
  | error f => simp
  | ok n =>
    simp only [Except.ok.injEq, exists_eq_left']
    cases Memory.word? s.platform.byteOrder s.mem n <;> simp

/-- Everything a write can answer. -/
theorem writeWord_ok {s t : State} {a v : Word} :
    s.writeWord a v = .ok t ↔
      ∃ n, accessAt s.platform a = .ok n ∧
        t = { s with mem := Memory.setWord s.platform.byteOrder s.mem n v } := by
  unfold State.writeWord
  cases accessAt s.platform a with
  | error f => simp
  | ok n => simp [eq_comm]

/-! ## Division -/

/-- Everything a quotient can be: the two corners, each as its policy says, or the truncated quotient. -/
theorem quotient_cases (p : Platform) (a b : Word) :
    (b.toInt = 0 ∧ quotient p a b = quotientCorner p.divByZero .divideByZero (Config.quotientByZero a)) ∨
    (a.toInt = -2 ^ 31 ∧ b.toInt = -1 ∧
      quotient p a b = quotientCorner p.divOverflow .divideOverflow Config.quotientOverflow) ∨
    (b.toInt ≠ 0 ∧ ¬ (a.toInt = -2 ^ 31 ∧ b.toInt = -1) ∧
      quotient p a b = .ok (BitVec.ofInt 32 (a.toInt.tdiv b.toInt))) := by
  by_cases h0 : b.toInt = 0
  · exact .inl ⟨h0, if_pos h0⟩
  · by_cases h1 : a.toInt = -2 ^ 31 ∧ b.toInt = -1
    · exact .inr (.inl ⟨h1.1, h1.2, by unfold quotient; rw [if_neg h0, if_pos h1]⟩)
    · exact .inr (.inr ⟨h0, h1, by unfold quotient; rw [if_neg h0, if_neg h1]⟩)

end Sys2Proof.Machine
end

