-- ==== Sys2Proof/Laws/Operands.lean ====
section
/-!
SUPPORT. What each operand form is as an integer: the sign-extended literal, the shift count, the low 31 bits of the PC,
the masked jump target, the vector.
-/

namespace Sys2Proof.Machine

/-- The sign-extended literal as a signed integer (30_encoding.md R84). -/
@[simp] theorem sext_toInt (lit : Lit) : (sext lit).toInt = lit.toInt := BitVec.toInt_signExtend_of_le (by omega)

/-- The sign-extended literal as an unsigned integer. -/
theorem sext_toNat (lit : Lit) : ((sext lit).toNat : Int) = lit.toInt % 2 ^ 32 := by
  rw [← sext_toInt lit, BitVec.toInt_eq_toNat_cond]
  have := (sext lit).isLt
  split <;> omega

/-- Bit `i` of the sign-extended literal is bit `min i 15` of the literal. -/
theorem sext_getLsbD (lit : Lit) (i : Nat) (h : i < 32) : (sext lit).getLsbD i = lit.getLsbD (min i 15) := by
  simp only [sext, BitVec.getLsbD_signExtend, h]
  by_cases h2 : i < 16
  · simp [h2, show min i 15 = i by omega]
  · simp [h2, show min i 15 = 15 by omega, BitVec.msb_eq_getLsbD_last]

/-- The count in a register is its value modulo 32 (30_encoding.md R85). -/
theorem countOfWord_toNat (w : Word) : (countOfWord w).toNat = w.toNat % 32 := by
  simp [countOfWord, BitVec.extractLsb'_toNat]

/-- The count in a literal is its value modulo 32 (30_encoding.md R85). -/
theorem countOfLit_toNat (lit : Lit) : (countOfLit lit).toNat = lit.toNat % 32 := by
  simp [countOfLit, BitVec.extractLsb'_toNat]

/-- The displacement of BEQ, BNE and LDR (30_encoding.md R86). -/
theorem displacement_toNat (lit : Lit) : ((displacement lit).toNat : Int) = (4 * lit.toInt) % 2 ^ 32 := by
  have h : (displacement lit).toNat = (4 * (sext lit).toNat) % 2 ^ 32 := by simp [displacement]
  have := sext_toNat lit
  omega

/-- The low 31 bits of a word as an integer. -/
theorem low_toNat (p : Word) : (p.extractLsb' 0 31).toNat = p.toNat % 2 ^ 31 := by simp [BitVec.extractLsb'_toNat]

/-- A word with its low two bits cleared, as an integer. -/
theorem masked_toNat (a : Word) : (a &&& 0xFFFFFFFC#32).toNat = a.toNat / 4 * 4 := by
  have h : (a &&& 0xFFFFFFFC#32) = (a >>> 2) <<< 2 := by
    apply BitVec.eq_of_getLsbD_eq
    intro i hi
    have hm : (0xFFFFFFFC#32).getLsbD i = decide (2 ≤ i) := by revert i; decide
    rw [BitVec.getLsbD_and, hm, BitVec.getLsbD_shiftLeft, BitVec.getLsbD_ushiftRight]
    by_cases h2 : 2 ≤ i
    · simp [h2, hi, show ¬ i < 2 by omega, show 2 + (i - 2) = i by omega]
    · simp [h2, show i < 2 by omega]
  rw [h]
  simp only [BitVec.toNat_shiftLeft, BitVec.toNat_ushiftRight, Nat.shiftRight_eq_div_pow, Nat.shiftLeft_eq]
  have := a.isLt
  omega

/-- Every vector is a multiple of 4 (60_exceptions.md R208). -/
theorem vector_low (p : Platform) (k : ExceptionKind) : (vector p k).extractLsb' 0 2 = 0#2 := by
  have h : ∀ b : BitVec 30, (b ++ 0#2 : Word).extractLsb' 0 2 = 0#2 := fun b => by
    apply BitVec.eq_of_getLsbD_eq
    intro i hi
    rw [BitVec.getLsbD_extractLsb',
      show (b ++ 0#2 : Word).getLsbD (0 + i) = (HAppend.hAppend b (0#2) : BitVec (30 + 2)).getLsbD (0 + i) from rfl,
      BitVec.getLsbD_append]
    simp [hi]
  cases k <;> exact h _

end Sys2Proof.Machine
end

