-- ==== Sys2Proof/Laws/Run.lean ====
section
/-!
SUPPORT. The equations of a run, one per case, so that no proof about runs unfolds them.
-/

namespace Sys2Proof.Machine

variable {next : State → Host.Outcome State Fault Refusal} {ended : EndOfRun} {s t : State}

@[simp] theorem stepsFrom_zero : stepsFrom next 0 s = .next s := rfl

theorem stepsFrom_succ_of_next (h : next s = .next t) (n : Nat) : stepsFrom next (n + 1) s = stepsFrom next n t := by
  simp [stepsFrom, h]

/-- More than no steps answer a next state only through the next state of the first. -/
theorem stepsFrom_succ_next {n : Nat} (h : stepsFrom next (n + 1) s = .next t) :
    ∃ u, next s = .next u ∧ stepsFrom next n u = .next t := by
  simp only [stepsFrom] at h
  split at h
  · exact ⟨_, ‹_›, h⟩
  · cases h
  · cases h

theorem runUntil_of_ended (h : ended s = true) (n : Nat) : runUntil next ended n s = some (.next s) := by
  cases n <;> simp [runUntil, h]

theorem runUntil_zero_of_not_ended (h : ended s = false) : runUntil next ended 0 s = none := by simp [runUntil, h]

theorem runUntil_succ_of_next (h : ended s = false) (hn : next s = .next t) (n : Nat) :
    runUntil next ended (n + 1) s = runUntil next ended n t := by simp [runUntil, h, hn]

theorem runUntil_succ_of_fault {f : Fault} (h : ended s = false) (hn : next s = .fault f) (n : Nat) :
    runUntil next ended (n + 1) s = some (.fault f) := by simp [runUntil, h, hn]

theorem runUntil_succ_of_refused {r : Refusal} (h : ended s = false) (hn : next s = .refused r) (n : Nat) :
    runUntil next ended (n + 1) s = some (.refused r) := by simp [runUntil, h, hn]

end Sys2Proof.Machine
end

