-- ==== Sys2Proof/Laws/Step.lean ====
section
/-!
SUPPORT. What `exec` and `step` can do, said once: every claim about a next state starts from these cases.
-/

namespace Sys2Proof.Machine

open Sys2Proof.Safety

/-- The ways an instruction answers a next state. Every one of the 64 instructions is in one of them. -/
theorem exec_next_cases {i : Instr} {s t : State} (h : exec i s = .next t) :
    (∃ rc v, t = s.finish rc v) ∨
    (∃ rc lit ra n, i = .st rc lit ra ∧ accessAt s.platform (effectiveAddress s ra lit) = .ok n ∧
      t = ({ s with mem := Memory.setWord s.platform.byteOrder s.mem n (s.readReg rc) } : State).advance) ∨
    (∃ ra lit rc, i = .beq ra lit rc ∧ t = branch (s.readReg ra == 0#32) lit rc s) ∨
    (∃ ra lit rc, i = .bne ra lit rc ∧ t = branch (s.readReg ra != 0#32) lit rc s) ∨
    (∃ ra rc, i = .jmp ra rc ∧ t = (s.writeReg rc (incPc s.pc)).returnThrough (s.readReg ra)) ∨
    (s.supervisor = false ∧ (opcodeOf i = 0#6 ∨ ∀ s', exec i s' = raiseIllegal s') ∧
      t = s.takeException .illegalInstruction) := by
  have hill : raiseIllegal s = .next t → s.supervisor = false ∧ t = s.takeException .illegalInstruction := fun e => by
    rcases raiseIllegal_cases s with ⟨h1, h2⟩ | ⟨_, h2⟩
    · rw [h2] at e; cases e; exact ⟨h1, rfl⟩
    · rw [h2] at e; cases e
  cases i
  case ld => obtain ⟨w, -, e⟩ := orFault_next.1 h; cases e; exact .inl ⟨_, _, rfl⟩
  case ldr => obtain ⟨w, -, e⟩ := orFault_next.1 h; cases e; exact .inl ⟨_, _, rfl⟩
  case div => obtain ⟨w, -, e⟩ := orFault_next.1 h; cases e; exact .inl ⟨_, _, rfl⟩
  case divc => obtain ⟨w, -, e⟩ := orFault_next.1 h; cases e; exact .inl ⟨_, _, rfl⟩
  case st rc lit ra =>
    obtain ⟨w, hw, e⟩ := orFault_next.1 h
    obtain ⟨n, hn, rfl⟩ := writeWord_ok.1 hw
    cases e; exact .inr (.inl ⟨rc, lit, ra, n, rfl, hn, rfl⟩)
  case beq ra lit rc => cases h; exact .inr (.inr (.inl ⟨ra, lit, rc, rfl, rfl⟩))
  case bne ra lit rc => cases h; exact .inr (.inr (.inr (.inl ⟨ra, lit, rc, rfl, rfl⟩)))
  case jmp ra rc => cases h; exact .inr (.inr (.inr (.inr (.inl ⟨ra, rc, rfl, rfl⟩))))
  case priv bits =>
    cases hs : s.supervisor
    · simp only [exec, execPriv, execPrivWith, hs] at h
      have := hill h
      exact .inr (.inr (.inr (.inr (.inr ⟨rfl, .inl rfl, this.2⟩))))
    · simp [exec, execPriv, execPrivWith, privStep, hs] at h
  all_goals first
    | (cases h; exact .inl ⟨_, _, rfl⟩)
    | exact .inr (.inr (.inr (.inr (.inr ⟨(hill h).1, .inr (fun _ => rfl), (hill h).2⟩))))

/-- In user mode the instruction executes on the state whose boundary has been passed. -/
theorem atInstruction_user {s : State} (h : s.supervisor = false) : atInstruction s = s.passBoundary := by
  simp only [atInstruction, h]
  rfl

/-- In supervisor mode the instruction executes on the state as it stands. -/
theorem atInstruction_supervisor {s : State} (h : s.supervisor = true) : atInstruction s = s := by
  simp [atInstruction, h]

/-- The request that stands, read off the list: none exactly where no source requests. -/
theorem irqRequest_eq_none_iff (s : State) : s.irqRequest = none ↔ NoRequestStands s.platform s.irqRequests := by
  unfold State.irqRequest NoRequestStands
  rcases s.irqRequests with _ | ⟨_ | k, rest⟩ <;> simp

/-- The request that stands, read off the list: source `k` exactly where the head names it and it is a source. -/
theorem irqRequest_eq_some_iff (s : State) (k : Nat) :
    s.irqRequest = some k ↔ (∃ rest, s.irqRequests = some k :: rest) ∧ k < s.platform.vecIrq.length := by
  unfold State.irqRequest
  rcases s.irqRequests with _ | ⟨_ | j, rest⟩ <;> simp
  exact ⟨fun ⟨h, e⟩ => ⟨e, e ▸ h⟩, fun ⟨e, h⟩ => ⟨e ▸ h, e⟩⟩

/-- The ways a step answers a next state, whatever executes an instruction: an interrupt, or the instruction at the PC. -/
theorem stepBy_next_cases {execute : Instr → State → Host.Outcome State Fault Refusal} {s t : State}
    (h : stepBy execute s = .next t) :
    (∃ k, s.supervisor = false ∧ s.irqRequest = some k ∧ t = s.passBoundary.takeException (.interrupt k)) ∨
    (NoInterruptDue s ∧ ∃ w, s.fetch = .ok w ∧ execute (decode w) (atInstruction s) = .next t) := by
  unfold stepBy at h
  cases hs : s.supervisor
  · rw [hs] at h
    cases hk : s.irqRequest with
    | some k => rw [hk] at h; cases h; exact .inl ⟨k, rfl, rfl, rfl⟩
    | none =>
      rw [hk] at h
      obtain ⟨w, hw, e⟩ := orFault_next.1 h
      exact .inr ⟨.inr ((irqRequest_eq_none_iff s).1 hk), w, hw, (atInstruction_user hs).symm ▸ e⟩
  · rw [hs] at h
    obtain ⟨w, hw, e⟩ := orFault_next.1 h
    exact .inr ⟨.inl hs, w, hw, (atInstruction_supervisor hs).symm ▸ e⟩

/-- The ways a step answers a next state: an interrupt, or the instruction at the PC. -/
theorem step_next_cases {s t : State} (h : step s = .next t) :
    (∃ k, s.supervisor = false ∧ s.irqRequest = some k ∧ t = s.passBoundary.takeException (.interrupt k)) ∨
    (NoInterruptDue s ∧ ∃ w, s.fetch = .ok w ∧ exec (decode w) (atInstruction s) = .next t) := stepBy_next_cases h

/-! ## Under a PRIV_STEP -/

/-- The ways PRIV_STEP answers a next state: an implementation is named and defines the word. -/
theorem privStep_next {implementation : Option PrivilegedMeaning} {bits : BitVec 26} {s t : State}
    (h : privStep implementation bits s = .next t) :
    ∃ meaning v, implementation = some meaning ∧ meaning bits s.visible = some v ∧ t = s.withVisible v := by
  rcases implementation with _ | meaning
  · cases h
  · simp only [privStep] at h
    split at h
    · cases h; exact ⟨meaning, _, rfl, ‹_›, rfl⟩
    · cases h

/-- No instruction but PRIV takes PRIV_STEP. -/
theorem execWith_of_ne_priv (implementation : Option PrivilegedMeaning) {i : Instr} (s : State)
    (h : ∀ bits, i ≠ .priv bits) : execWith implementation i s = exec i s := by
  cases i
  case priv bits => exact absurd rfl (h bits)
  all_goals rfl

/-- With no implementation named every instruction is as `exec` has it. -/
@[simp] theorem execWith_none (i : Instr) (s : State) : execWith none i s = exec i s := by cases i <;> rfl

/-- The ways an instruction answers a next state under a PRIV_STEP: as it does with none named, or PRIV in supervisor mode
by a word that the implementation defines. -/
theorem execWith_next_cases {implementation : Option PrivilegedMeaning} {i : Instr} {s t : State}
    (h : execWith implementation i s = .next t) :
    exec i s = .next t ∨
    (s.supervisor = true ∧ ∃ bits meaning v, i = .priv bits ∧ implementation = some meaning ∧
      meaning bits s.visible = some v ∧ t = s.withVisible v) := by
  cases i
  case priv bits =>
    simp only [execWith, execPrivWith] at h
    split at h
    · rename_i hs
      obtain ⟨meaning, v, hi, hm, ht⟩ := privStep_next h
      exact .inr ⟨hs, bits, meaning, v, rfl, hi, hm, ht⟩
    · rename_i hs
      exact .inl ((if_neg hs).trans h)
  all_goals exact .inl h

end Sys2Proof.Machine
end

