-- ==== Sys2Proof/Tests/Slice0.lean ====
section
/-!
SUPPORT. The model's own tests: the smoke test of well-formedness, the decoding of every constructor from a word written
out bit by bit (95_test_vectors.md section 2.0, 30_encoding.md R93), one step of each instruction against
95_test_vectors.md section 2, and for every statement with hypotheses a concrete state that meets them.
-/

namespace Sys2Proof.Tests

open Sys2Proof.Machine Sys2Proof.Safety

/-! ## Small states -/

/-- The instantiation of 95_test_vectors.md (illegal-instruction vector 4, interrupt 0 at 8), with one hole of 16 bytes. -/
def testPlatform : Platform :=
  { vecIllegal := 1, vecIrq := [2], holes := [⟨0x2000, 16⟩], byteOrder := .little, misaligned := .fault,
    divByZero := .fault, divOverflow := .fault }

/-- A state with this PC, these registers and these words of memory. -/
def machine (pc : Word) (regs : List (RegNum × Word)) (words : List (Nat × Word)) : State :=
  let s := (State.powerUp testPlatform (Vector.replicate 31 0xA5A5A5A4#32) [] []).setPc pc
  let s := regs.foldl (fun s r => s.writeReg r.1 r.2) s
  { s with mem := words.foldl (fun m w => Memory.setWord .little m w.1 w.2) [] }

/-- A register and the PC after one step. -/
def after (s : State) (r : RegNum) : Option (Word × Word) :=
  match step s with
  | .next t => some (t.readReg r, t.pc)
  | _ => none

/-- A word of memory and the PC after one step. -/
def stored (s : State) (a : Nat) : Option (Option Word × Word) :=
  match step s with
  | .next t => some (Memory.word? t.platform.byteOrder t.mem a, t.pc)
  | _ => none

/-- The fault of one step. -/
def stop (s : State) : Option Fault :=
  match step s with
  | .fault f => some f
  | _ => none

/-- The refusal of one step. -/
def refusal (s : State) : Option Refusal :=
  match step s with
  | .refused e => some e
  | _ => none

/-! ## Well-formedness: what the checks refuse -/

theorem test_wellFormed_op : wordWellFormed 0x80611000#32 = true ∧ wordWellFormed 0x806117FF#32 = false := by decide
theorem test_wellFormed_jmp : wordWellFormed 0x6C410000#32 = true ∧ wordWellFormed 0x6C411234#32 = false := by decide
theorem test_wellFormed_ldr : wordWellFormed 0x7CA00000#32 = true ∧ wordWellFormed 0x7CA70000#32 = false := by decide
/-- Every bit of an illegal word is as it may be; and the literal of every other format OPC word is used. -/
theorem test_wellFormed_rest : wordWellFormed 0x9C0007FF#32 = true ∧ wordWellFormed 0xC041FFFF#32 = true := by decide
theorem test_labelAligned : labelAligned 0x100 0x120 = true ∧ labelAligned 0x100 0x122 = false := by decide
theorem test_labelInRange : labelInRange 0x20100 0x104 = true ∧ labelInRange 0x20100 0x100 = false ∧
    labelInRange 0x100 0x20100 = true ∧ labelInRange 0x100 0x20104 = false := by decide
/-- 30_encoding.md R97, 95_test_vectors.md section 1.3: the instruction itself is -1, the next one 0. -/
theorem test_labelLiteral : labelLiteral 0x100 0x100 = some 0xFFFF#16 ∧ labelLiteral 0x100 0x104 = some 0x0000#16 ∧
    labelLiteral 0x100 0x120 = some 0x0007#16 ∧ labelLiteral 0x100 0x122 = none := by decide

/-! ## Decode, each word written out as opcode, rc, ra and rb or literal -/

theorem test_decode_add : decode 0b100000_00011_00001_00010_00000000000#32 = .add 1 2 3 := by decide
theorem test_decode_sub : decode 0b100001_00011_00001_00010_00000000000#32 = .sub 1 2 3 := by decide
theorem test_decode_mul : decode 0b100010_00011_00001_00010_00000000000#32 = .mul 1 2 3 := by decide
theorem test_decode_div : decode 0b100011_00011_00001_00010_00000000000#32 = .div 1 2 3 := by decide
theorem test_decode_cmpeq : decode 0b100100_00011_00001_00010_00000000000#32 = .cmpeq 1 2 3 := by decide
theorem test_decode_cmplt : decode 0b100101_00011_00001_00010_00000000000#32 = .cmplt 1 2 3 := by decide
theorem test_decode_cmple : decode 0b100110_00011_00001_00010_00000000000#32 = .cmple 1 2 3 := by decide
theorem test_decode_and : decode 0b101000_00011_00001_00010_00000000000#32 = .and 1 2 3 := by decide
theorem test_decode_or : decode 0b101001_00011_00001_00010_00000000000#32 = .or 1 2 3 := by decide
theorem test_decode_xor : decode 0b101010_00011_00001_00010_00000000000#32 = .xor 1 2 3 := by decide
theorem test_decode_shl : decode 0b101100_00011_00001_00010_00000000000#32 = .shl 1 2 3 := by decide
theorem test_decode_shr : decode 0b101101_00011_00001_00010_00000000000#32 = .shr 1 2 3 := by decide
theorem test_decode_sra : decode 0b101110_00011_00001_00010_00000000000#32 = .sra 1 2 3 := by decide
theorem test_decode_addc : decode 0b110000_00010_00001_1111111111111111#32 = .addc 1 0xFFFF 2 := by decide
theorem test_decode_subc : decode 0b110001_00010_00001_1000000000000000#32 = .subc 1 0x8000 2 := by decide
theorem test_decode_mulc : decode 0b110010_00010_00001_1111111111111101#32 = .mulc 1 0xFFFD 2 := by decide
theorem test_decode_divc : decode 0b110011_00010_00001_1111111111111110#32 = .divc 1 0xFFFE 2 := by decide
theorem test_decode_cmpeqc : decode 0b110100_00010_00001_1111111111111111#32 = .cmpeqc 1 0xFFFF 2 := by decide
theorem test_decode_cmpltc : decode 0b110101_00010_00001_0000000000000000#32 = .cmpltc 1 0x0000 2 := by decide
theorem test_decode_cmplec : decode 0b110110_00010_00001_0000000000000001#32 = .cmplec 1 0x0001 2 := by decide
theorem test_decode_andc : decode 0b111000_00010_00001_1111111100000000#32 = .andc 1 0xFF00 2 := by decide
theorem test_decode_orc : decode 0b111001_00010_00001_0111111111111111#32 = .orc 1 0x7FFF 2 := by decide
theorem test_decode_xorc : decode 0b111010_00010_00001_1111111111111111#32 = .xorc 1 0xFFFF 2 := by decide
theorem test_decode_shlc : decode 0b111100_00010_00001_0000000000000100#32 = .shlc 1 0x0004 2 := by decide
theorem test_decode_shrc : decode 0b111101_00010_00001_0000000000011111#32 = .shrc 1 0x001F 2 := by decide
theorem test_decode_srac : decode 0b111110_00010_00001_0000000000011111#32 = .srac 1 0x001F 2 := by decide
theorem test_decode_ld : decode 0b011000_00010_00001_1111111111111100#32 = .ld 1 0xFFFC 2 := by decide
theorem test_decode_st : decode 0b011001_00010_00001_0000000000001000#32 = .st 2 8 1 := by decide
theorem test_decode_ldr : decode 0b011111_00101_00000_1111111111111101#32 = .ldr 0xFFFD 5 ∧
    decode 0b011111_00101_00111_0000000000000000#32 = .ldr 0 5 := by decide
theorem test_decode_beq : decode 0b011101_11111_00001_0000000000000111#32 = .beq 1 7 31 := by decide
theorem test_decode_bne : decode 0b011110_11100_00001_1111111111111011#32 = .bne 1 0xFFFB 28 := by decide
theorem test_decode_jmp : decode 0b011011_11111_11100_0000000000000000#32 = .jmp 28 31 ∧
    decode 0b011011_00010_00001_0001001000110100#32 = .jmp 1 2 := by decide
/-- Bits 10:0 are ignored (30_encoding.md R89, D11). -/
theorem test_decode_unusedBits : decode 0b100000_00011_00001_00010_11111111111#32 = .add 1 2 3 := by decide
theorem test_decode_priv : decode 0b000000_00000000000000000000000000#32 = .priv 0 ∧
    decode 0b000000_11111111111111111111111111#32 = .priv 0x3FFFFFF := by decide
theorem test_decode_illop_low :
    decode 0b000001_10000000000000000000000001#32 = .illop01 0x2000001 ∧
    decode 0b000010_10000000000000000000000001#32 = .illop02 0x2000001 ∧
    decode 0b000011_10000000000000000000000001#32 = .illop03 0x2000001 ∧
    decode 0b000100_10000000000000000000000001#32 = .illop04 0x2000001 ∧
    decode 0b000101_10000000000000000000000001#32 = .illop05 0x2000001 ∧
    decode 0b000110_10000000000000000000000001#32 = .illop06 0x2000001 ∧
    decode 0b000111_10000000000000000000000001#32 = .illop07 0x2000001 ∧
    decode 0b001000_10000000000000000000000001#32 = .illop08 0x2000001 := by decide
theorem test_decode_illop_middle :
    decode 0b001001_10000000000000000000000001#32 = .illop09 0x2000001 ∧
    decode 0b001010_10000000000000000000000001#32 = .illop0A 0x2000001 ∧
    decode 0b001011_10000000000000000000000001#32 = .illop0B 0x2000001 ∧
    decode 0b001100_10000000000000000000000001#32 = .illop0C 0x2000001 ∧
    decode 0b001101_10000000000000000000000001#32 = .illop0D 0x2000001 ∧
    decode 0b001110_10000000000000000000000001#32 = .illop0E 0x2000001 ∧
    decode 0b001111_10000000000000000000000001#32 = .illop0F 0x2000001 ∧
    decode 0b010000_10000000000000000000000001#32 = .illop10 0x2000001 := by decide
theorem test_decode_illop_high :
    decode 0b010001_10000000000000000000000001#32 = .illop11 0x2000001 ∧
    decode 0b010010_10000000000000000000000001#32 = .illop12 0x2000001 ∧
    decode 0b010011_10000000000000000000000001#32 = .illop13 0x2000001 ∧
    decode 0b010100_10000000000000000000000001#32 = .illop14 0x2000001 ∧
    decode 0b010101_10000000000000000000000001#32 = .illop15 0x2000001 ∧
    decode 0b010110_10000000000000000000000001#32 = .illop16 0x2000001 ∧
    decode 0b010111_10000000000000000000000001#32 = .illop17 0x2000001 := by decide
theorem test_decode_illop_isolated :
    decode 0b011010_10000000000000000000000001#32 = .illop1A 0x2000001 ∧
    decode 0b011100_10000000000000000000000001#32 = .illop1C 0x2000001 ∧
    decode 0b100111_10000000000000000000000001#32 = .illop27 0x2000001 ∧
    decode 0b101011_10000000000000000000000001#32 = .illop2B 0x2000001 ∧
    decode 0b101111_10000000000000000000000001#32 = .illop2F 0x2000001 ∧
    decode 0b110111_10000000000000000000000001#32 = .illop37 0x2000001 ∧
    decode 0b111011_10000000000000000000000001#32 = .illop3B 0x2000001 ∧
    decode 0b111111_10000000000000000000000001#32 = .illop3F 0x2000001 := by decide

/-- The encoder writes zeros in the unused bits and the words of 95_test_vectors.md section 2.0 elsewhere. -/
theorem test_encode : encode (.add 1 2 3) = 0x80611000#32 ∧ encode (.st 2 8 1) = 0x64410008#32 ∧
    encode (.ldr 7 5) = 0x7CA00007#32 ∧ encode (.jmp 30 31) = 0x6FFE0000#32 ∧ encode (.bne 1 0xFFFB 28) = 0x7B81FFFB#32 ∧
    encode (.illop1A 0) = 0x68000000#32 := by decide

/-- The two byte orders (20_memory.md R54). -/
theorem test_wordBytes : wordBytes .little 0x11223344#32 = [0x44#8, 0x33#8, 0x22#8, 0x11#8] ∧
    wordBytes .big 0x11223344#32 = [0x11#8, 0x22#8, 0x33#8, 0x44#8] := by decide

/-! ## One step of each instruction, at 0x100 in user mode unless another PC stands in the state
(95_test_vectors.md sections 2.1 to 2.7) -/

theorem test_add_wraps :
    after (machine 0x100 [(1, 0xFFFFFFFF), (2, 0x00000001)] [(0x100, 0x80611000)]) 3 = some (0x00000000, 0x104) := by
  decide
theorem test_add_sourceIsDestination :
    after (machine 0x100 [(1, 0x40000001)] [(0x100, 0x80210800)]) 1 = some (0x80000002, 0x104) := by decide
theorem test_addc_negativeLiteral :
    after (machine 0x100 [(1, 0x00000000)] [(0x100, 0xC0418000)]) 2 = some (0xFFFF8000, 0x104) := by decide
theorem test_addc_fromR31 : after (machine 0x100 [] [(0x100, 0xC05FFFFF)]) 2 = some (0xFFFFFFFF, 0x104) := by decide
theorem test_sub_minuendIsRa :
    after (machine 0x100 [(1, 0x80000000), (2, 0x00000001)] [(0x100, 0x84611000)]) 3 = some (0x7FFFFFFF, 0x104) := by
  decide
theorem test_sub_fromR31 :
    after (machine 0x100 [(2, 0x80000000)] [(0x100, 0x847F1000)]) 3 = some (0x80000000, 0x104) := by decide
theorem test_subc_negativeLiteral :
    after (machine 0x100 [(1, 0x7FFFFFFF)] [(0x100, 0xC441FFFF)]) 2 = some (0x80000000, 0x104) := by decide
theorem test_mul_low :
    after (machine 0x100 [(1, 0x12345678), (2, 0x9ABCDEF0)] [(0x100, 0x88611000)]) 3 = some (0x242D2080, 0x104) := by
  decide
theorem test_mulc_negativeLiteral :
    after (machine 0x100 [(1, 0x80000000)] [(0x100, 0xC841FFFF)]) 2 = some (0x80000000, 0x104) := by decide
theorem test_div_truncates :
    after (machine 0x100 [(1, 0xFFFFFFF9), (2, 0x00000002)] [(0x100, 0x8C611000)]) 3 = some (0xFFFFFFFD, 0x104) := by
  decide
theorem test_div_overflow :
    stop (machine 0x100 [(1, 0x80000000), (2, 0xFFFFFFFF)] [(0x100, 0x8C611000)]) = some .divideOverflow := by decide
theorem test_divc_truncates :
    after (machine 0x100 [(1, 0xFFFFFF9D)] [(0x100, 0xCC41000A)]) 2 = some (0xFFFFFFF7, 0x104) := by decide
theorem test_divc_byZero :
    stop (machine 0x100 [(1, 0x00000001)] [(0x100, 0xCC410000)]) = some .divideByZero := by decide
theorem test_and_withR31 :
    after (machine 0x100 [(1, 0xFFFFFFFF)] [(0x100, 0xA061F800)]) 3 = some (0x00000000, 0x104) := by decide
theorem test_andc_signExtends :
    after (machine 0x100 [(1, 0x1234FFFF)] [(0x100, 0xE0418000)]) 2 = some (0x12348000, 0x104) := by decide
theorem test_or_withR31 :
    after (machine 0x100 [(1, 0xA5A5A5A5)] [(0x100, 0xA461F800)]) 3 = some (0xA5A5A5A5, 0x104) := by decide
theorem test_orc_signExtends :
    after (machine 0x100 [] [(0x100, 0xE45FFFFF)]) 2 = some (0xFFFFFFFF, 0x104) := by decide
theorem test_xor_itself :
    after (machine 0x100 [(1, 0xDEADBEEF)] [(0x100, 0xA8610800)]) 3 = some (0x00000000, 0x104) := by decide
theorem test_xorc_signExtends :
    after (machine 0x100 [(1, 0x00008000)] [(0x100, 0xE8418000)]) 2 = some (0xFFFF0000, 0x104) := by decide
theorem test_cmpeq_equal :
    after (machine 0x100 [(1, 0x80000000), (2, 0x80000000)] [(0x100, 0x90611000)]) 3 = some (0x00000001, 0x104) := by
  decide
theorem test_cmpeq_unequal :
    after (machine 0x100 [(1, 0x80000000), (2, 0x7FFFFFFF)] [(0x100, 0x90611000)]) 3 = some (0x00000000, 0x104) := by
  decide
theorem test_cmpeqc_signExtends :
    after (machine 0x100 [(1, 0xFFFF8000)] [(0x100, 0xD0418000)]) 2 = some (0x00000001, 0x104) := by decide
theorem test_cmplt_signed :
    after (machine 0x100 [(1, 0x80000000), (2, 0x7FFFFFFF)] [(0x100, 0x94611000)]) 3 = some (0x00000001, 0x104) := by
  decide
theorem test_cmplt_equal :
    after (machine 0x100 [(1, 0x00000000), (2, 0x00000000)] [(0x100, 0x94611000)]) 3 = some (0x00000000, 0x104) := by
  decide
theorem test_cmpltc_signed :
    after (machine 0x100 [(1, 0x80000000)] [(0x100, 0xD4418000)]) 2 = some (0x00000001, 0x104) := by decide
theorem test_cmple_signed :
    after (machine 0x100 [(1, 0x00000000), (2, 0xFFFFFFFF)] [(0x100, 0x98611000)]) 3 = some (0x00000000, 0x104) := by
  decide
theorem test_cmple_equal :
    after (machine 0x100 [(1, 0x00000000), (2, 0x00000000)] [(0x100, 0x98611000)]) 3 = some (0x00000001, 0x104) := by
  decide
theorem test_cmplec_equal :
    after (machine 0x100 [(1, 0x00007FFF)] [(0x100, 0xD8417FFF)]) 2 = some (0x00000001, 0x104) := by decide
theorem test_shl_31 :
    after (machine 0x100 [(1, 0x80000001), (2, 0xFFFFFFFF)] [(0x100, 0xB0611000)]) 3 = some (0x80000000, 0x104) := by
  decide
theorem test_shlc_32IsZero :
    after (machine 0x100 [(1, 0x80000001)] [(0x100, 0xF0410020)]) 2 = some (0x80000001, 0x104) := by decide
theorem test_shr_zeroFill :
    after (machine 0x100 [(1, 0x80000001), (2, 0x0000001F)] [(0x100, 0xB4611000)]) 3 = some (0x00000001, 0x104) := by
  decide
theorem test_shrc_ignoresHighBits :
    after (machine 0x100 [(1, 0xF0000000)] [(0x100, 0xF4417FE4)]) 2 = some (0x0F000000, 0x104) := by decide
theorem test_sra_signFill :
    after (machine 0x100 [(1, 0x80000001), (2, 0x0000001F)] [(0x100, 0xB8611000)]) 3 = some (0xFFFFFFFF, 0x104) := by
  decide
theorem test_srac_signFill :
    after (machine 0x100 [(1, 0x80000001)] [(0x100, 0xF8410001)]) 2 = some (0xC0000000, 0x104) := by decide
theorem test_ld_baseIsDestination :
    after (machine 0x100 [(1, 0x00001004)] [(0x100, 0x6021FFFC), (0x1000, 0x11223344)]) 1 = some (0x11223344, 0x104) := by
  decide
/-- LD uses all 32 bits of its address (44_load_store.md R171, D25). -/
theorem test_ld_usesBit31 :
    after (machine 0x100 [(1, 0x80000100)] [(0x100, 0x60410000), (0x80000100, 0xCAFE0001)]) 2 = some (0xCAFE0001, 0x104) := by
  decide
theorem test_ldr_ownWord : after (machine 0x100 [] [(0x100, 0x7CA0FFFF)]) 5 = some (0x7CA0FFFF, 0x104) := by decide
theorem test_ldr_supervisor :
    after (machine 0x80000100 [] [(0x100, 0x7CA0003F), (0x200, 0x600DF00D)]) 5 = some (0x600DF00D, 0x80000104) := by
  decide
theorem test_st_baseIsData :
    stored (machine 0x100 [(1, 0x00001000)] [(0x100, 0x64210000)]) 0x1000 = some (some 0x00001000, 0x104) := by decide
theorem test_st_misaligned :
    stop (machine 0x100 [(1, 0x00001000), (2, 0x00000007)] [(0x100, 0x64410001)]) = some .misalignedAccess := by decide
theorem test_beq_taken :
    after (machine 0x100 [(1, 0x00000000)] [(0x100, 0x74210007)]) 1 = some (0x00000104, 0x120) := by decide
theorem test_beq_wrapsInSupervisorMode :
    after (machine 0x80000100 [] [(0x100, 0x77FF8000)]) 31 = some (0x00000000, 0xFFFE0104) := by decide
theorem test_bne_taken :
    after (machine 0x100 [(1, 0xFFFFFFFF)] [(0x100, 0x78410007)]) 2 = some (0x00000104, 0x120) := by decide
theorem test_bne_linksWhenNotTaken :
    after (machine 0x80000100 [] [(0x100, 0x785F0007)]) 2 = some (0x80000104, 0x80000104) := by decide
theorem test_jmp_cannotSetSupervisor :
    after (machine 0x100 [(1, 0x80000203)] [(0x100, 0x6C410000)]) 2 = some (0x00000104, 0x200) := by decide
theorem test_jmp_clearsSupervisor :
    after (machine 0x80000100 [(1, 0x00000200)] [(0x100, 0x6C210000)]) 1 = some (0x80000104, 0x200) := by decide
theorem test_priv_user :
    after (machine 0x100 [] [(0x100, 0x03FFFFFF)]) 30 = some (0x00000104, 0x80000004) := by decide
theorem test_priv_supervisor :
    refusal (machine 0x80000100 [] [(0x100, 0x03FFFFFF)]) = some (.privilegedUndefined 0x3FFFFFF) := by decide
theorem test_illop01_user :
    after (machine 0x100 [] [(0x100, 0x04000000)]) 30 = some (0x00000104, 0x80000004) := by decide
theorem test_illop17_user :
    after (machine 0x100 [] [(0x100, 0x5C000000)]) 30 = some (0x00000104, 0x80000004) := by decide
theorem test_illop1A_user :
    after (machine 0x100 [] [(0x100, 0x68000000)]) 30 = some (0x00000104, 0x80000004) := by decide
theorem test_illop1C_user :
    after (machine 0x100 [] [(0x100, 0x70000000)]) 30 = some (0x00000104, 0x80000004) := by decide
theorem test_illop27_user :
    after (machine 0x100 [] [(0x100, 0x9C000000)]) 30 = some (0x00000104, 0x80000004) := by decide
theorem test_illop2B_user :
    after (machine 0x100 [] [(0x100, 0xAC000000)]) 30 = some (0x00000104, 0x80000004) := by decide
theorem test_illop2F_user :
    after (machine 0x100 [] [(0x100, 0xBC000000)]) 30 = some (0x00000104, 0x80000004) := by decide
theorem test_illop37_user :
    after (machine 0x100 [] [(0x100, 0xDC000000)]) 30 = some (0x00000104, 0x80000004) := by decide
theorem test_illop3B_user :
    after (machine 0x100 [] [(0x100, 0xEC000000)]) 30 = some (0x00000104, 0x80000004) := by decide
theorem test_illop3F_user :
    after (machine 0x100 [] [(0x100, 0xFC000000)]) 30 = some (0x00000104, 0x80000004) := by decide
theorem test_illop01_supervisor :
    stop (machine 0x80000100 [] [(0x100, 0x04000000)]) = some .supervisorException := by decide

/-- An implementation for the tests: a word with bits 15:0 = 1 reads the character 0x41 from a device into the register in
bits 25:21, and no other word is defined. -/
def reader : PrivilegedMeaning := fun bits v =>
  if bits.extractLsb' 0 16 = 1#16 then
    some { v with regs := v.regs.setIfInBounds (bits.extractLsb' 21 5).toNat 0x41#32, pc := incPc v.pc }
  else none

/-- Supervisor mode at 0x100, with a word of opcode 0x00 there. -/
def privileged (w : Word) : State := machine 0x80000100 [] [(0x100, w)]

theorem test_priv_implementation :
    (match stepWith (some reader) (privileged 0x00400001) with
      | .next t => some (t.readReg 2, t.pc)
      | _ => none) = some (0x41, 0x80000104) := by decide
theorem test_priv_undefinedWord :
    (match stepWith (some reader) (privileged 0x00400002) with
      | .fault f => some f
      | _ => none) = some .supervisorException := by decide

/-! ## Exceptions, interrupts, reset (95_test_vectors.md section 2.8) -/

theorem test_interrupt_topOfUserSpace :
    after { machine 0x7FFFFFFC [] [] with irqRequests := [some 0] } 30 = some (0, 0x80000008) := by decide
theorem test_interrupt_heldInSupervisorMode :
    after { machine 0x80000020 [] [(0x20, 0xC05F0007)] with irqRequests := [some 0] } 2 = some (7, 0x80000024) := by
  decide
theorem test_return_fromTrap : after (machine 0x80000024 [(30, 0x48)] [(0x24, 0x6FFE0000)]) 30 = some (0x48, 0x48) := by
  decide
theorem test_return_staysInSupervisorMode :
    after (machine 0x80000024 [(30, 0x80000048)] [(0x24, 0x6FFE0000)]) 30 = some (0x80000048, 0x80000048) := by decide
theorem test_reset : State.reset.pc = 0x80000000#32 ∧ State.reset.supervisor = true ∧ Memory.wf State.reset.mem := by
  decide
/-- The host's two probes: the first row of the opcode table. -/
theorem test_withFetchWord : decodeTableWord 32 0x80611000 = some (.add 1 2 3) ∧
    after (State.reset.withFetchWord 32 0x83FFF800) 31 = some (0, 0x80000004) := by decide

/-! ## Witnesses: states and operands that meet the hypotheses of the statements -/

theorem witness_decodeIgnoresUnusedBits :
    (opcodeField 0x80611000#32 = opcodeField 0x806117FF#32 ∧ rcField 0x80611000#32 = rcField 0x806117FF#32 ∧
      opcodeField 0x80611000#32 ∈ opOpcodes ∧ raField 0x80611000#32 = raField 0x806117FF#32 ∧
      rbField 0x80611000#32 = rbField 0x806117FF#32) ∧
    (opcodeField 0x6C410000#32 = opcodeField 0x6C411234#32 ∧ rcField 0x6C410000#32 = rcField 0x6C411234#32 ∧
      opcodeField 0x6C410000#32 = 0x1B#6 ∧ raField 0x6C410000#32 = raField 0x6C411234#32) ∧
    (opcodeField 0x7CA00000#32 = opcodeField 0x7CA70000#32 ∧ rcField 0x7CA00000#32 = rcField 0x7CA70000#32 ∧
      opcodeField 0x7CA00000#32 = 0x1F#6 ∧ litField 0x7CA00000#32 = litField 0x7CA70000#32) := by decide

theorem witness_decodeBytes_tooShort : ([] : List Byte).length < 4 ∧ [0#8, 0#8, 0#8].length < 4 := by decide

/-- Both ends of the range, from an instruction in supervisor mode; and one step beyond each. -/
theorem witness_labelLiteral : (0x100 < 2 ^ 31 ∧ 0x20100 < 2 ^ 31 ∧ labelWellFormed 0x100 0x20100 = true ∧
      (0x80000100#32).toNat % 2 ^ 31 = 0x100) ∧
    (labelWellFormed 0x20100 0x104 = true ∧ (0x20100#32).toNat % 2 ^ 31 = 0x20100) ∧
    labelWellFormed 0x100 0x20104 = false ∧ labelWellFormed 0x20100 0x100 = false ∧
    labelWellFormed 0x100 0x102 = false := by decide

theorem witness_pcBit31 : (0x80000100#32).toNat % 2 ^ 31 = (0x100#32).toNat % 2 ^ 31 := by decide

/-- A state with two registers set, for the divisions. -/
def dividing (a b : Word) : State := machine 0x100 [(1, a), (2, b)] []

theorem witness_quotient : (((dividing 0x80000000 1).readReg 2).toInt ≠ 0 ∧
      ¬ (((dividing 0x80000000 1).readReg 1).toInt = -2 ^ 31 ∧ ((dividing 0x80000000 1).readReg 2).toInt = -1)) ∧
    (((dividing 0x80000001 0xFFFFFFFF).readReg 2).toInt ≠ 0 ∧
      ¬ (((dividing 0x80000001 0xFFFFFFFF).readReg 1).toInt = -2 ^ 31 ∧
        ((dividing 0x80000001 0xFFFFFFFF).readReg 2).toInt = -1)) := by decide

theorem witness_quotient_literal : ((0xFFFE#16).toInt ≠ 0 ∧
      ¬ (((dividing 0x80000000 0).readReg 1).toInt = -2 ^ 31 ∧ (0xFFFE#16).toInt = -1)) ∧
    ((0xFFFF#16).toInt ≠ 0 ∧ ¬ (((dividing 7 0).readReg 1).toInt = -2 ^ 31 ∧ (0xFFFF#16).toInt = -1)) := by decide

/-- The same division on an implementation that goes on. -/
def dividingOn (a b : Word) : State :=
  { dividing a b with platform := { testPlatform with divByZero := .freeValue, divOverflow := .freeValue } }

theorem witness_noQuotient :
    (((dividing 5 0).readReg 2).toInt = 0 ∧ (dividing 5 0).platform.divByZero = .fault) ∧
    (((dividingOn 5 0).readReg 2).toInt = 0 ∧ (dividingOn 5 0).platform.divByZero = .freeValue) ∧
    (((dividing 0x80000000 0xFFFFFFFF).readReg 1).toInt = -2 ^ 31 ∧
      ((dividing 0x80000000 0xFFFFFFFF).readReg 2).toInt = -1 ∧
      (dividing 0x80000000 0xFFFFFFFF).platform.divOverflow = .fault) ∧
    (((dividingOn 0x80000000 0xFFFFFFFF).readReg 1).toInt = -2 ^ 31 ∧
      ((dividingOn 0x80000000 0xFFFFFFFF).readReg 2).toInt = -1 ∧
      (dividingOn 0x80000000 0xFFFFFFFF).platform.divOverflow = .freeValue) ∧
    (0x0000#16).toInt = 0 ∧ (0xFFFF#16).toInt = -1 := by decide

/-- An implementation that ignores the low two bits of an address. -/
def maskingPlatform : Platform := { testPlatform with misaligned := .clearLowBits }

/-- Both edges of the hole, inside and outside, and addresses that are no multiple of 4 under both policies. -/
theorem witness_access :
    ((0x1FFC#32).toNat % 4 = 0 ∧ mapped testPlatform 0x1FFC#32 = true) ∧
    ((0x2010#32).toNat % 4 = 0 ∧ mapped testPlatform 0x2010#32 = true) ∧
    ((0xFFFFFFFC#32).toNat % 4 = 0 ∧ mapped testPlatform 0xFFFFFFFC#32 = true) ∧
    ((0x2000#32).toNat % 4 = 0 ∧ mapped testPlatform 0x2000#32 = false) ∧
    ((0x200C#32).toNat % 4 = 0 ∧ mapped testPlatform 0x200C#32 = false) ∧
    ((0x1001#32).toNat % 4 ≠ 0 ∧ testPlatform.misaligned = .fault) ∧
    ((0xFFFFFFFF#32).toNat % 4 ≠ 0 ∧ maskingPlatform.misaligned = .clearLowBits) := by decide

/-- A state for LD, ST and LDR: a word at 0x1000, r1 at it, r3 below the hole, r4 at the last word of the hole. -/
def accessing : State := machine 0x100 [(1, 0x1000), (3, 0x1FFC), (4, 0x200C)] [(0x1000, 0x11223344), (0x104, 0x600DF00D)]

theorem witness_ld : accessAt accessing.platform (effectiveAddress accessing 1 0) = .ok 0x1000 ∧
    Memory.word? accessing.platform.byteOrder accessing.mem 0x1000 = some 0x11223344 := ⟨rfl, by decide⟩

/-- At the first word of the space and, through r31, at the last. -/
theorem witness_st : accessAt accessing.platform (effectiveAddress accessing r31 0) = .ok 0 ∧
    accessAt accessing.platform (effectiveAddress accessing r31 0xFFFC) = .ok 0xFFFFFFFC ∧
    accessAt accessing.platform (effectiveAddress accessing 3 0) = .ok 0x1FFC := ⟨rfl, rfl, rfl⟩

theorem witness_ldr : accessing.pc.toNat % 4 = 0 ∧ mapped accessing.platform (relativeAddress accessing 0) = true ∧
    Memory.word? accessing.platform.byteOrder accessing.mem (relativeAddress accessing 0).toNat = some 0x600DF00D := by
  decide

theorem witness_stops :
    accessAt accessing.platform (effectiveAddress accessing 4 0) = .error .unmappedAccess ∧
    accessAt accessing.platform (effectiveAddress accessing 1 2) = .error .misalignedAccess ∧
    (accessAt accessing.platform (effectiveAddress accessing 3 0) = .ok 0x1FFC ∧
      Memory.word? accessing.platform.byteOrder accessing.mem 0x1FFC = none) := ⟨rfl, rfl, rfl, by decide⟩

/-- LDR at 0x100 reaches the hole with literal 0x7BF, and the word after its own with literal 1. -/
theorem witness_ldr_stops : accessing.pc.toNat % 4 = 0 ∧
    mapped accessing.platform (relativeAddress accessing 0x7BF) = false ∧
    mapped accessing.platform (relativeAddress accessing 1) = true ∧
    Memory.word? accessing.platform.byteOrder accessing.mem (relativeAddress accessing 1).toNat = none := by decide

theorem witness_store : (∃ t, exec (.st 3 0 1) accessing = .next t) ∧
    pcAddress 0x80001000#32 = effectiveAddress accessing 1 0 ∧
    accessAt accessing.platform 0x1004#32 = .ok 0x1004 ∧ 0x1004 ≠ 0x1000 := ⟨⟨_, rfl⟩, by decide, rfl, by decide⟩

/-- The last source of the platform. -/
theorem witness_vector : 0 < testPlatform.vecIrq.length ∧ ¬ 1 < testPlatform.vecIrq.length := by decide

/-- The parameters of 95_test_vectors.md section 2.7 and program P4: vectors 4 and 8. -/
theorem test_vector : vector testPlatform .illegalInstruction = 4#32 ∧ vector testPlatform (.interrupt 0) = 8#32 := by
  decide

theorem witness_modes : (machine 0x100 [] []).supervisor = false ∧ (machine 0x80000100 [] []).supervisor = true ∧
    (0x03FFFFFF#32).toNat < 0x04000000 ∧ Instr.illop3F 0 ∈ illegalInstrs 0 := by decide

/-- A state at 0x100 with ADD there, in the mode of the PC given, with these requests. -/
def fetching (pc : Word) (q : List (Option Nat)) : State := { machine pc [] [(0x100, 0x80611000)] with irqRequests := q }

/-- What the statement of the step asks of the PC and of the word there, for ADD. -/
abbrev FetchesAdd (s : State) : Prop :=
  s.pc.toNat % 4 = 0 ∧ mapped s.platform (pcAddress s.pc) = true ∧
    Memory.word? s.platform.byteOrder s.mem (pcAddress s.pc).toNat = some 0x80611000#32

/-- In supervisor mode with a request standing. -/
theorem witness_step_supervisor : NoInterruptDue (fetching 0x80000100 [some 0]) ∧
    FetchesAdd (fetching 0x80000100 [some 0]) := ⟨.inl (by decide), by decide⟩

/-- In user mode with no entry, with one that requests nothing, and with one that names the first number that is no
source. -/
theorem witness_step_user :
    (NoInterruptDue (fetching 0x100 []) ∧ FetchesAdd (fetching 0x100 [])) ∧
    (NoInterruptDue (fetching 0x100 [none, some 0]) ∧ FetchesAdd (fetching 0x100 [none, some 0])) ∧
    (NoInterruptDue (fetching 0x100 [some 1, some 0]) ∧ FetchesAdd (fetching 0x100 [some 1, some 0])) :=
  ⟨⟨.inr (.inl rfl), by decide⟩, ⟨.inr (.inr (.inl ⟨_, rfl⟩)), by decide⟩,
    ⟨.inr (.inr (.inr ⟨_, _, rfl, by decide⟩)), by decide⟩⟩

theorem witness_fetchStops : NoInterruptDue (machine 0x80002000 [] []) ∧
    (machine 0x80002000 [] []).fetch = .error .unmappedAccess := ⟨.inl (by decide), rfl⟩

/-- A user-mode state with a request of source 0 standing. -/
def interrupted (pc : Word) : State := { machine pc [] [] with irqRequests := [some 0, none] }

theorem witness_interrupt : (interrupted 0x7FFFFFFC).supervisor = false ∧
    (interrupted 0x7FFFFFFC).irqRequests = some 0 :: [none] ∧ 0 < (interrupted 0x7FFFFFFC).platform.vecIrq.length := by
  decide

theorem witness_supervisorStep : (machine 0x80000100 [] [(0x100, 0x80611000)]).supervisor = true ∧
    ∃ t, step (machine 0x80000100 [] [(0x100, 0x80611000)]) = .next t := ⟨by decide, _, rfl⟩

/-- The last instruction of user space: XP is 0 there. -/
theorem witness_returnFromTrap : (machine 0x7FFFFFFC [] []).supervisor = false ∧
    (machine 0x7FFFFFFC [] []).pc.toNat % 4 = 0 ∧ (machine 0x80000024 [(30, 0)] []).supervisor = true ∧
    (machine 0x80000024 [(30, 0)] []).readReg xp =
      ((machine 0x7FFFFFFC [] []).takeException .illegalInstruction).readReg xp := by decide

/-- The first instruction of user space and the last but one. -/
theorem witness_returnFromInterrupt : ((machine 0 [] []).supervisor = false ∧ (machine 0 [] []).pc.toNat % 4 = 0 ∧
      (machine 0 [] []).pc.toNat ≠ 0x7FFFFFFC ∧ (machine 0x80000034 [(30, 4)] []).supervisor = true ∧
      (machine 0x80000034 [(30, 4)] []).readReg xp =
        ((machine 0 [] []).takeException (.interrupt 0)).readReg xp) ∧
    ((machine 0x7FFFFFF8 [] []).pc.toNat ≠ 0x7FFFFFFC ∧ (machine 0x80000034 [(30, 0x7FFFFFFC)] []).readReg xp =
      ((machine 0x7FFFFFF8 [] []).takeException (.interrupt 0)).readReg xp) := by decide

theorem witness_modeChange :
    ((interrupted 0x100).supervisor = false ∧ ∃ t, step (interrupted 0x100) = .next t ∧ t.supervisor = true) ∧
    ((machine 0x80000024 [(30, 0x48)] [(0x24, 0x6FFE0000)]).supervisor = true ∧
      ∃ t, step (machine 0x80000024 [(30, 0x48)] [(0x24, 0x6FFE0000)]) = .next t ∧ t.supervisor = false) :=
  ⟨⟨by decide, _, rfl, by decide⟩, by decide, _, rfl, by decide⟩

/-- A state that meets the invariant and answers a next state, by ST. -/
theorem witness_invariant : Invariant (machine 0x100 [(1, 0x1000)] [(0x100, 0x64210000)]) ∧
    ∃ t, step (machine 0x100 [(1, 0x1000)] [(0x100, 0x64210000)]) = .next t := ⟨⟨by decide, by decide⟩, _, rfl⟩

theorem witness_exec_next : ∃ t, exec (.st 3 0 1) accessing = .next t ∧ destination (.st 3 0 1) ≠ some 3 :=
  ⟨_, rfl, by decide⟩

/-- A defined and an undefined word in supervisor mode, an instruction that is not PRIV, and user mode. -/
theorem witness_privStep : (privileged 0).supervisor = true ∧
    (∃ v, reader 0x0400001#26 (privileged 0).visible = some v) ∧
    reader 0x0400002#26 (privileged 0).visible = none ∧ (machine 0x100 [] []).supervisor = false ∧
    ∀ bits, Instr.add 1 2 3 ≠ .priv bits := ⟨by decide, ⟨_, rfl⟩, rfl, by decide, fun _ h => by cases h⟩

/-- A word with opcode 0x00 that the implementation defines, one that it does not, and a word with another opcode. -/
theorem witness_stepWith :
    ((privileged 0x00400001).supervisor = true ∧ (privileged 0x00400001).fetch = .ok 0x00400001#32 ∧
      opcodeField 0x00400001#32 = 0x00#6 ∧
      ∃ v, reader (bitsField 0x00400001#32) (privileged 0x00400001).visible = some v) ∧
    ((privileged 0x03FFFFFF).fetch = .ok 0x03FFFFFF#32 ∧ opcodeField 0x03FFFFFF#32 = 0x00#6 ∧
      reader (bitsField 0x03FFFFFF#32) (privileged 0x03FFFFFF).visible = none) ∧
    ((privileged 0x04000000).fetch = .ok 0x04000000#32 ∧ opcodeField 0x04000000#32 ≠ 0x00#6) ∧
    (machine 0x80002000 [] []).fetch = .error .unmappedAccess :=
  ⟨⟨by decide, rfl, by decide, _, rfl⟩, ⟨rfl, by decide, rfl⟩, ⟨rfl, by decide⟩, rfl⟩

/-- The implementation keeps the invariant, and a step under it answers a next state. -/
theorem witness_stepWith_invariant :
    (∀ meaning, some reader = some meaning → ∀ bits s v, s.supervisor = true → Invariant s →
      meaning bits s.visible = some v → Invariant (s.withVisible v)) ∧
    Invariant (privileged 0x00400001) ∧ ∃ t, stepWith (some reader) (privileged 0x00400001) = .next t := by
  refine ⟨fun meaning hm bits s v _ hs ht => ?_, ⟨by decide, by decide⟩, _, rfl⟩
  cases hm
  simp only [reader] at ht
  split at ht
  · cases ht
    exact ⟨by simpa using incPc_aligned hs.1, by simpa using hs.2⟩
  · cases ht

/-- An implementation for the tests that leaves supervisor mode by every word of opcode 0x00 (entry 28). -/
def leaver : PrivilegedMeaning := fun _ v => some { v with pc := (incPc v.pc) &&& 0x7FFFFFFF#32 }

/-- Supervisor mode left by a word of opcode 0x00, and by JMP under an implementation that never leaves it. -/
theorem witness_modeWith :
    ((privileged 0).supervisor = true ∧ ∃ t, stepWith (some leaver) (privileged 0) = .next t ∧ t.supervisor = false) ∧
    ((interrupted 0x100).supervisor = false ∧
      ∃ t, stepWith (some reader) (interrupted 0x100) = .next t ∧ t.supervisor = true) ∧
    (∀ bits u v, u.pc.getLsbD 31 = true → reader bits u = some v → v.pc.getLsbD 31 = true) ∧
    ((machine 0x80000024 [(30, 0x48)] [(0x24, 0x6FFE0000)]).supervisor = true ∧
      ∃ t, stepWith (some reader) (machine 0x80000024 [(30, 0x48)] [(0x24, 0x6FFE0000)]) = .next t ∧
        t.supervisor = false) := by
  refine ⟨⟨by decide, _, rfl, by decide⟩, ⟨by decide, _, rfl, by decide⟩, fun bits u v hu h => ?_, by decide, _, rfl,
    by decide⟩
  simp only [reader] at h
  split at h
  · cases h; exact (incPc_bit31 u.pc).trans hu
  · cases h

theorem witness_modeBlind : modeBlind (.ldr 0 5) = true ∧ modeBlind (.divc 1 0 2) = true := by decide

theorem witness_powerUp : Memory.wf (machine 0 [] [(0, 1), (0xFFFFFFFC, 2)]).mem ∧ (30#5).toNat < 31 := by decide

/-- The self-branch in user mode. -/
def spinning (sources : List (BitVec 30)) (requests : List (Option Nat)) : State :=
  { machine 0x100 [] [(0x100, 0x77FFFFFF)] with
    platform := { testPlatform with vecIrq := sources }, irqRequests := requests }

/-- In supervisor mode with a request standing, and in user mode with no sources, whatever the list of requests holds. -/
theorem witness_endOfRun :
    endOfRun { machine 0x80000100 [] [(0x100, 0x77FFFFFF)] with irqRequests := [some 0] } = true ∧
    endOfRun (spinning [] []) = true ∧ endOfRun (spinning [] [none, some 0]) = true := by decide

/-- In user mode with a source the run has not ended, though no request stands (70_reset_and_hazards.md R246). -/
theorem test_endOfRun_source : endOfRun (spinning [2#30] []) = false := by decide

/-- A run of one step, under the spec's convention and under another END_OF_RUN. -/
theorem witness_runUntil :
    (∃ t, runUntil (stepWith none) endOfRun 1 (machine 0x800000FC [] [(0xFC, 0xC05F0007), (0x100, 0x77FFFFFF)]) =
      some (.next t)) ∧
    (∃ t, runUntil (stepWith (some reader)) (fun s => s.readReg 2 == 0x41#32) 1 (privileged 0x00400001) =
      some (.next t)) := ⟨⟨_, rfl⟩, _, rfl⟩

end Sys2Proof.Tests
end

section
/-!
The instruction fetch and LDR treat bit 31 of the PC as if it were zero (10_state.md R28). The one idea: everything
they compute from a PC value is a function of its low 31 bits.
-/

namespace Sys2Proof.Machine

/-! ## The low 31 bits of a word -/

theorem low_eq_iff (p q : Word) :
    p.extractLsb' 0 31 = q.extractLsb' 0 31 ↔ p.toNat % 2 ^ 31 = q.toNat % 2 ^ 31 := by
  rw [← BitVec.toNat_inj, low_toNat, low_toNat]

/-- A word whose bit 31 is zero is, as a number, its low 31 bits. -/
theorem toNat_eq_low {a : Word} (h : a.getLsbD 31 = false) : a.toNat = (a.extractLsb' 0 31).toNat := by
  have hlt : a.toNat < 2 ^ 31 :=
    BitVec.toNat_lt_of_msb_false (w := 32) (by rw [BitVec.msb_eq_getLsbD_last]; exact h)
  rw [low_toNat, Nat.mod_eq_of_lt hlt]

/-! ## What a PC value presents -/

theorem pcAddress_toNat (p : Word) : (pcAddress p).toNat = p.toNat % 2 ^ 31 := by
  rw [toNat_eq_low (pcAddress_bit31 p), pcAddress_low, low_toNat]

/-- The address presented is fixed by the low 31 bits. -/
theorem pcAddress_eq_iff (p q : Word) : pcAddress p = pcAddress q ↔ p.extractLsb' 0 31 = q.extractLsb' 0 31 := by
  rw [← BitVec.toNat_inj, pcAddress_toNat, pcAddress_toNat, low_eq_iff]

/-- The low 31 bits of a branch target are computed from those of the PC alone (10_state.md R27). -/
theorem branchTarget_low (p : Word) (lit : Lit) :
    (branchTarget p lit).extractLsb' 0 31 = p.extractLsb' 0 31 + 4#31 + (displacement lit).extractLsb' 0 31 := by
  rw [branchTarget, pcRel_low, incPc_low]

/-! ## The fetch and LDR after a change of the PC -/

/-- Reading memory does not look at the PC. -/
@[simp] theorem State.readWord_setPc (s : State) (p a : Word) : (s.setPc p).readWord a = s.readWord a := rfl

@[simp] theorem State.fetch_setPc (s : State) (p : Word) : (s.setPc p).fetch = s.readWord (pcAddress p) := rfl

@[simp] theorem relativeAddress_setPc (s : State) (p : Word) (lit : Lit) :
    relativeAddress (s.setPc p) lit = pcAddress (branchTarget p lit) := rfl

theorem fetch_setPc_congr (s : State) {p q : Word} (h : p.extractLsb' 0 31 = q.extractLsb' 0 31) :
    (s.setPc p).fetch = (s.setPc q).fetch := by
  rw [State.fetch_setPc, State.fetch_setPc, (pcAddress_eq_iff p q).mpr h]

theorem relativeAddress_setPc_congr (s : State) (lit : Lit) {p q : Word}
    (h : p.extractLsb' 0 31 = q.extractLsb' 0 31) :
    relativeAddress (s.setPc p) lit = relativeAddress (s.setPc q) lit := by
  rw [relativeAddress_setPc, relativeAddress_setPc, pcAddress_eq_iff, branchTarget_low, branchTarget_low, h]

/-- Settles O9: the address presented is the low 31 bits, and the fetch and LDR see the PC only through them. -/
theorem fetchAndLdrIgnoreSupervisorBit : Obligations.FetchAndLdrIgnoreSupervisorBit := by
  unfold Obligations.FetchAndLdrIgnoreSupervisorBit
  refine ⟨pcAddress_toNat, fun s => rfl, fun s p q lit hlow => ?_⟩
  have hbits : p.extractLsb' 0 31 = q.extractLsb' 0 31 := (low_eq_iff p q).mpr hlow
  exact ⟨fetch_setPc_congr s hbits, relativeAddress_setPc_congr s lit hbits⟩

end Sys2Proof.Machine
end

section
/-!
The opcode field alone selects the instruction (30_encoding.md R87). The case split is along the rows of `decode`: in a
written row the opcode is the row's own, and the last row is left with the one opcode that no other row names.
-/

namespace Sys2Proof

/-- The opcode that the last row of `decode` stands for: none of the 63 below it. -/
theorem opcode_eq_3F_of_ne {op : Opcode} (h : ∀ n < 0x3F, op ≠ BitVec.ofNat 6 n) : op = 0x3F#6 := by
  by_contra hne
  have hlt : op.toNat < 0x3F := by bv_omega
  exact h op.toNat hlt (by simp)

/-- Decoding keeps the opcode of the word. -/
@[simp] theorem opcodeOf_decode (w : Word) : opcodeOf (decode w) = opcodeField w := by
  unfold decode
  split
  case h_64 =>
    have hlast : opcodeField w = 0x3F#6 := opcode_eq_3F_of_ne fun n hn => by interval_cases n <;> assumption
    exact hlast.symm
  all_goals exact Eq.symm ‹opcodeField w = _›

/-- Settles O3, by the rows of `decode`. -/
theorem opcodeAloneSelectsInstruction : Obligations.OpcodeAloneSelectsInstruction := by
  unfold Obligations.OpcodeAloneSelectsInstruction
  exact opcodeOf_decode

end Sys2Proof
end

section
/-!
The instruction words as the spec's rules write them (40_arithmetic.md R111, R112 and every rule of formats OP and OPC):
such a word is an opcode put before its operand bits, so that a row of `decode` gives the operands back.
-/

namespace Sys2Proof.Safety

/-! ## The word as an opcode before its operand bits -/

theorem opWord_eq_append (op : Opcode) (rc ra rb : RegNum) :
    opWord (op ++ 0#26) rc ra rb = op ++ opFields rc ra rb := by
  apply BitVec.eq_of_getLsbD_eq
  intro i hi
  simp only [opWord, BitVec.getLsbD_or, BitVec.getLsbD_shiftLeft, BitVec.getLsbD_setWidth, getLsbD_word,
    getLsbD_opFields]
  grind

theorem opcWord_eq_append (op : Opcode) (rc ra : RegNum) (lit : Lit) :
    opcWord (op ++ 0#26) rc ra lit = op ++ opcFields rc ra lit := by
  apply BitVec.eq_of_getLsbD_eq
  intro i hi
  simp only [opcWord, BitVec.getLsbD_or, BitVec.getLsbD_shiftLeft, BitVec.getLsbD_setWidth, getLsbD_word,
    getLsbD_opcFields]
  grind

/-! ## Decoding it by the row of its opcode -/

/-- Where a row of `decode` reads the three registers, the word of the rule decodes to the instruction of that row. -/
theorem decode_opWord {op : Opcode} {row : RegNum → RegNum → RegNum → Instr}
    (hrow : ∀ w, opcodeField w = op → decode w = row (raField w) (rbField w) (rcField w)) (ra rb rc : RegNum) :
    decode (opWord (op ++ 0#26) rc ra rb) = row ra rb rc := by
  rw [opWord_eq_append, hrow _ (Laws.EncodedOpcode.opcodeField_append op _), raField_op, rbField_op, rcField_op]

/-- Where a row of `decode` reads two registers and the literal, the word of the rule decodes to the instruction of that
row. -/
theorem decode_opcWord {op : Opcode} {row : RegNum → Lit → RegNum → Instr}
    (hrow : ∀ w, opcodeField w = op → decode w = row (raField w) (litField w) (rcField w))
    (ra : RegNum) (lit : Lit) (rc : RegNum) : decode (opcWord (op ++ 0#26) rc ra lit) = row ra lit rc := by
  rw [opcWord_eq_append, hrow _ (Laws.EncodedOpcode.opcodeField_append op _), raField_opc, litField_opc, rcField_opc]

end Sys2Proof.Safety
end

section
/-!
ADD, SUB, MUL and their literal forms (40_arithmetic.md R111 to R116): one equation for each meaning, the value as an
integer, and the frame from `finish_computes`.
-/

namespace Sys2Proof.Machine

open Sys2Proof.Safety

/-! ## The meanings -/

theorem exec_add (ra rb rc : RegNum) (s : State) :
    exec (.add ra rb rc) s = .next (s.finish rc (s.readReg ra + s.readReg rb)) := rfl

theorem exec_addc (ra : RegNum) (lit : Lit) (rc : RegNum) (s : State) :
    exec (.addc ra lit rc) s = .next (s.finish rc (s.readReg ra + sext lit)) := rfl

theorem exec_sub (ra rb rc : RegNum) (s : State) :
    exec (.sub ra rb rc) s = .next (s.finish rc (s.readReg ra - s.readReg rb)) := rfl

theorem exec_subc (ra : RegNum) (lit : Lit) (rc : RegNum) (s : State) :
    exec (.subc ra lit rc) s = .next (s.finish rc (s.readReg ra - sext lit)) := rfl

theorem exec_mul (ra rb rc : RegNum) (s : State) :
    exec (.mul ra rb rc) s = .next (s.finish rc (s.readReg ra * s.readReg rb)) := rfl

theorem exec_mulc (ra : RegNum) (lit : Lit) (rc : RegNum) (s : State) :
    exec (.mulc ra lit rc) s = .next (s.finish rc (s.readReg ra * sext lit)) := rfl

/-! ## The values as integers -/

theorem add_sext_toNat (a : Word) (lit : Lit) :
    ((a + sext lit).toNat : Int) = ((a.toNat : Int) + lit.toInt) % 2 ^ 32 := by
  have hlit := sext_toNat lit
  rw [BitVec.toNat_add]
  omega

theorem sub_toNat (a b : Word) : ((a - b).toNat : Int) = ((a.toNat : Int) - (b.toNat : Int)) % 2 ^ 32 := by
  have hb := b.isLt
  rw [BitVec.toNat_sub]
  omega

theorem sub_sext_toNat (a : Word) (lit : Lit) :
    ((a - sext lit).toNat : Int) = ((a.toNat : Int) - lit.toInt) % 2 ^ 32 := by
  rw [sub_toNat, sext_toNat, Int.sub_emod_emod]

/-- The unsigned reading of a word is its signed reading modulo 2^32. -/
theorem toNat_eq_toInt_emod (a : Word) : (a.toNat : Int) = a.toInt % 2 ^ 32 := by
  have ha := a.isLt
  rw [BitVec.toInt_eq_toNat_cond]
  split <;> omega

/-- The low 32 bits of the product do not depend on whether the operands are read as signed (40_arithmetic.md R115). -/
theorem mul_toNat_eq_toInt_mul (a b : Word) : ((a * b).toNat : Int) = (a.toInt * b.toInt) % 2 ^ 32 := by
  rw [toNat_eq_toInt_emod, BitVec.toInt_mul]
  exact Int.bmod_emod

theorem mul_sext_toNat (a : Word) (lit : Lit) : ((a * sext lit).toNat : Int) = (a.toInt * lit.toInt) % 2 ^ 32 := by
  rw [mul_toNat_eq_toInt_mul, sext_toInt]

/-! ## The rules -/

/-- Settles O11: R111 and R112. -/
theorem addAndAddcWriteSum : Obligations.AddAndAddcWriteSum := by
  unfold Obligations.AddAndAddcWriteSum
  refine ⟨decode_opWord (op := 0x20#6) fun w h => by simp [decode, h],
    decode_opcWord (op := 0x30#6) fun w h => by simp [decode, h], ?_, ?_⟩
  · exact fun ra rb rc s => ⟨_, _, exec_add ra rb rc s, finish_computes s rc _, BitVec.toNat_add _ _⟩
  · exact fun ra lit rc s => ⟨_, _, exec_addc ra lit rc s, finish_computes s rc _, add_sext_toNat _ lit⟩

/-- Settles O12: R113 and R114. -/
theorem subAndSubcWriteDifference : Obligations.SubAndSubcWriteDifference := by
  unfold Obligations.SubAndSubcWriteDifference
  refine ⟨decode_opWord (op := 0x21#6) fun w h => by simp [decode, h],
    decode_opcWord (op := 0x31#6) fun w h => by simp [decode, h], ?_, ?_⟩
  · exact fun ra rb rc s => ⟨_, _, exec_sub ra rb rc s, finish_computes s rc _, sub_toNat _ _⟩
  · exact fun ra lit rc s => ⟨_, _, exec_subc ra lit rc s, finish_computes s rc _, sub_sext_toNat _ lit⟩

/-- Settles O13: R115 and R116. -/
theorem mulAndMulcWriteLowProduct : Obligations.MulAndMulcWriteLowProduct := by
  unfold Obligations.MulAndMulcWriteLowProduct
  refine ⟨decode_opWord (op := 0x22#6) fun w h => by simp [decode, h],
    decode_opcWord (op := 0x32#6) fun w h => by simp [decode, h], ?_, ?_⟩
  · exact fun ra rb rc s => ⟨_, _, exec_mul ra rb rc s, finish_computes s rc _, BitVec.toNat_mul _ _,
      mul_toNat_eq_toInt_mul _ _⟩
  · exact fun ra lit rc s => ⟨_, _, exec_mulc ra lit rc s, finish_computes s rc _, mul_sext_toNat _ lit⟩

end Sys2Proof.Machine
end

section
/-!
Which registers an instruction changes (40_arithmetic.md R110 and the like of each family). The split is on whether the
instruction names a destination: with one, it writes that register and the PC; without one, it is ST, which writes no
register, or it takes the illegal instruction exception, which writes XP.
-/

namespace Sys2Proof.Machine

open Sys2Proof.Safety

theorem readReg_of_registersAfterWrite {s t : State} {rc r : RegNum} {v : Word} (h : RegistersAfterWrite s t rc v)
    (hr : r ≠ rc) : t.readReg r = s.readReg r := by
  rw [h r, if_neg hr]
  split
  · next h31 => rw [h31, State.readReg_r31]
  · rfl

/-- Raising the illegal instruction exception answers a next state in user mode only: that of the entry. -/
theorem raiseIllegal_next {s t : State} (h : raiseIllegal s = .next t) :
    s.supervisor = false ∧ t = s.takeException .illegalInstruction := by
  rcases raiseIllegal_cases s with ⟨huser, hentry⟩ | ⟨-, hstop⟩
  · rw [hentry] at h
    cases h
    exact ⟨huser, rfl⟩
  · rw [hstop] at h
    cases h

/-- PRIV with no implementation named answers a next state in user mode only: that of the entry. -/
theorem execPriv_next {bits : BitVec 26} {s t : State} (h : execPriv bits s = .next t) :
    s.supervisor = false ∧ t = s.takeException .illegalInstruction := by
  unfold execPriv execPrivWith at h
  split at h
  · cases h
  · exact raiseIllegal_next h

/-- What every instruction with a destination does: a value into the destination, a PC, and nothing else. -/
theorem exec_next_of_destination {i : Instr} {rc : RegNum} {s t : State} (hd : destination i = some rc)
    (h : exec i s = .next t) : ∃ v p, t = (s.writeReg rc v).setPc p := by
  cases i <;> cases hd
  case ld | ldr | div | divc =>
    obtain ⟨v, -, hfinish⟩ := orFault_next.1 h
    cases hfinish
    exact ⟨v, _, rfl⟩
  all_goals
    cases h
    exact ⟨_, _, rfl⟩

/-- What every instruction without a destination does to the registers: nothing, or the entry of the illegal instruction
exception from user mode. -/
theorem exec_next_of_no_destination {i : Instr} {s t : State} (hd : destination i = none) (h : exec i s = .next t) :
    SameRegisters s t ∨ (s.supervisor = false ∧ t = s.takeException .illegalInstruction) := by
  cases i <;> cases hd
  case st =>
    obtain ⟨u, hwrite, hadvance⟩ := orFault_next.1 h
    obtain ⟨n, -, rfl⟩ := writeWord_ok.1 hwrite
    cases hadvance
    exact .inl fun r => rfl
  case priv => exact .inr (execPriv_next h)
  all_goals exact .inr (raiseIllegal_next h)

/-- Settles O45, by whether the instruction names a destination. -/
theorem registersChangeOnlyAtDestination : Obligations.RegistersChangeOnlyAtDestination := by
  unfold Obligations.RegistersChangeOnlyAtDestination
  intro i s t r h hr
  cases hd : destination i with
  | some rc =>
    obtain ⟨v, p, rfl⟩ := exec_next_of_destination hd h
    have hne : r ≠ rc := fun e => hr (e ▸ hd)
    exact .inl (readReg_of_registersAfterWrite (writeReg_registers s rc v) hne)
  | none =>
    rcases exec_next_of_no_destination hd h with hsame | ⟨huser, rfl⟩
    · exact .inl (hsame r)
    · by_cases hxp : r = xp
      · exact .inr ⟨hxp, huser, takeException_enters s .illegalInstruction⟩
      · exact .inl (readReg_of_registersAfterWrite (takeException_registers s .illegalInstruction) hxp)

end Sys2Proof.Machine
end

section
/-!
AND, OR, XOR and their literal forms (41_logical.md R131 to R136). The six share one argument: an operation that works on
each bit by itself writes, bit by bit, that operation of the two operands, where bit `i` of the sign-extended literal is
bit `min i 15` of the literal (30_encoding.md R84).
-/

namespace Sys2Proof.Machine

open Sys2Proof.Safety

/-! ## An operation that works bit by bit -/

/-- Bit `i` of what `f` computes is `g` of bit `i` of each operand. -/
def Bitwise (f : Word → Word → Word) (g : Bool → Bool → Bool) : Prop :=
  ∀ a b i, (f a b).getLsbD i = g (a.getLsbD i) (b.getLsbD i)

theorem bitwise_and : Bitwise (· &&& ·) and := fun _ _ _ => BitVec.getLsbD_and

theorem bitwise_or : Bitwise (· ||| ·) or := fun _ _ _ => BitVec.getLsbD_or

theorem bitwise_xor : Bitwise (· ^^^ ·) bne := fun _ _ _ => BitVec.getLsbD_xor

/-- A bitwise operation in format OP: completion, frame, and each bit of the value. -/
theorem opResult_bitwise {f : Word → Word → Word} {g : Bool → Bool → Bool} (hf : Bitwise f g) (ra rb rc : RegNum)
    (s : State) : ∃ t v, opResult f ra rb rc s = .next t ∧ Computes s t rc v ∧
      ∀ i < 32, v.getLsbD i = g ((s.readReg ra).getLsbD i) ((s.readReg rb).getLsbD i) :=
  ⟨_, _, rfl, finish_computes s rc _, fun i _ => hf _ _ i⟩

/-- A bitwise operation in format OPC: completion, frame, and each bit of the value. -/
theorem opcResult_bitwise {f : Word → Word → Word} {g : Bool → Bool → Bool} (hf : Bitwise f g) (ra : RegNum) (lit : Lit)
    (rc : RegNum) (s : State) : ∃ t v, opcResult f ra lit rc s = .next t ∧ Computes s t rc v ∧
      ∀ i < 32, v.getLsbD i = g ((s.readReg ra).getLsbD i) (lit.getLsbD (min i 15)) := by
  refine ⟨_, _, rfl, finish_computes s rc _, fun i hi => ?_⟩
  rw [hf, sext_getLsbD lit i hi]

/-! ## The meanings -/

theorem exec_and (ra rb rc : RegNum) (s : State) : exec (.and ra rb rc) s = opResult (· &&& ·) ra rb rc s := rfl

theorem exec_andc (ra : RegNum) (lit : Lit) (rc : RegNum) (s : State) :
    exec (.andc ra lit rc) s = opcResult (· &&& ·) ra lit rc s := rfl

theorem exec_or (ra rb rc : RegNum) (s : State) : exec (.or ra rb rc) s = opResult (· ||| ·) ra rb rc s := rfl

theorem exec_orc (ra : RegNum) (lit : Lit) (rc : RegNum) (s : State) :
    exec (.orc ra lit rc) s = opcResult (· ||| ·) ra lit rc s := rfl

theorem exec_xor (ra rb rc : RegNum) (s : State) : exec (.xor ra rb rc) s = opResult (· ^^^ ·) ra rb rc s := rfl

theorem exec_xorc (ra : RegNum) (lit : Lit) (rc : RegNum) (s : State) :
    exec (.xorc ra lit rc) s = opcResult (· ^^^ ·) ra lit rc s := rfl

/-! ## The rules -/

/-- Settles O16: R131 and R132. -/
theorem andAndAndcWriteConjunction : Obligations.AndAndAndcWriteConjunction := by
  unfold Obligations.AndAndAndcWriteConjunction
  refine ⟨decode_opWord (op := 0x28#6) fun w h => by simp [decode, h],
    decode_opcWord (op := 0x38#6) fun w h => by simp [decode, h], fun ra rb rc s => ?_, fun ra lit rc s => ?_⟩
  · rw [exec_and]
    exact opResult_bitwise bitwise_and ra rb rc s
  · rw [exec_andc]
    exact opcResult_bitwise bitwise_and ra lit rc s

/-- Settles O17: R133 and R134. -/
theorem orAndOrcWriteDisjunction : Obligations.OrAndOrcWriteDisjunction := by
  unfold Obligations.OrAndOrcWriteDisjunction
  refine ⟨decode_opWord (op := 0x29#6) fun w h => by simp [decode, h],
    decode_opcWord (op := 0x39#6) fun w h => by simp [decode, h], fun ra rb rc s => ?_, fun ra lit rc s => ?_⟩
  · rw [exec_or]
    exact opResult_bitwise bitwise_or ra rb rc s
  · rw [exec_orc]
    exact opcResult_bitwise bitwise_or ra lit rc s

/-- Settles O18: R135 and R136. -/
theorem xorAndXorcWriteDifferenceOfBits : Obligations.XorAndXorcWriteDifferenceOfBits := by
  unfold Obligations.XorAndXorcWriteDifferenceOfBits
  refine ⟨decode_opWord (op := 0x2A#6) fun w h => by simp [decode, h],
    decode_opcWord (op := 0x3A#6) fun w h => by simp [decode, h], fun ra rb rc s => ?_, fun ra lit rc s => ?_⟩
  · rw [exec_xor]
    exact opResult_bitwise bitwise_xor ra rb rc s
  · rw [exec_xorc]
    exact opcResult_bitwise bitwise_xor ra lit rc s

end Sys2Proof.Machine
end

section
/-!
CMPEQ, CMPLE, CMPLT and their literal forms (43_compare.md R160 to R166). Each predicate is a decision about its two words;
read as a signed integer, the sign-extended literal is the literal itself, and words are equal where their integers are.
-/

namespace Sys2Proof.Machine

open Sys2Proof.Safety

/-! ## The predicates as decisions (R160) -/

theorem truth_decide (p : Prop) [Decidable p] : truth (decide p) = if p then 1#32 else 0#32 := by
  by_cases h : p <;> simp [truth, h]

theorem cmpEq_eq_ite (a b : Word) : cmpEq a b = if a = b then 1#32 else 0#32 := truth_decide (a = b)

theorem cmpLe_eq_ite (a b : Word) : cmpLe a b = if a.toInt ≤ b.toInt then 1#32 else 0#32 := truth_decide _

theorem cmpLt_eq_ite (a b : Word) : cmpLt a b = if a.toInt < b.toInt then 1#32 else 0#32 := truth_decide _

/-- All 32 bits agree with the sign-extended literal exactly where the two are one integer. -/
theorem eq_sext_iff (a : Word) (lit : Lit) : a = sext lit ↔ a.toInt = lit.toInt := by
  rw [← BitVec.toInt_inj, sext_toInt]

theorem cmpEq_sext (a : Word) (lit : Lit) : cmpEq a (sext lit) = if a.toInt = lit.toInt then 1#32 else 0#32 := by
  simp only [cmpEq_eq_ite, eq_sext_iff]

theorem cmpLe_sext (a : Word) (lit : Lit) : cmpLe a (sext lit) = if a.toInt ≤ lit.toInt then 1#32 else 0#32 := by
  rw [cmpLe_eq_ite, sext_toInt]

theorem cmpLt_sext (a : Word) (lit : Lit) : cmpLt a (sext lit) = if a.toInt < lit.toInt then 1#32 else 0#32 := by
  rw [cmpLt_eq_ite, sext_toInt]

/-! ## The meanings -/

theorem exec_cmpeq (ra rb rc : RegNum) (s : State) :
    exec (.cmpeq ra rb rc) s = .next (s.finish rc (cmpEq (s.readReg ra) (s.readReg rb))) := rfl

theorem exec_cmpeqc (ra : RegNum) (lit : Lit) (rc : RegNum) (s : State) :
    exec (.cmpeqc ra lit rc) s = .next (s.finish rc (cmpEq (s.readReg ra) (sext lit))) := rfl

theorem exec_cmple (ra rb rc : RegNum) (s : State) :
    exec (.cmple ra rb rc) s = .next (s.finish rc (cmpLe (s.readReg ra) (s.readReg rb))) := rfl

theorem exec_cmplec (ra : RegNum) (lit : Lit) (rc : RegNum) (s : State) :
    exec (.cmplec ra lit rc) s = .next (s.finish rc (cmpLe (s.readReg ra) (sext lit))) := rfl

theorem exec_cmplt (ra rb rc : RegNum) (s : State) :
    exec (.cmplt ra rb rc) s = .next (s.finish rc (cmpLt (s.readReg ra) (s.readReg rb))) := rfl

theorem exec_cmpltc (ra : RegNum) (lit : Lit) (rc : RegNum) (s : State) :
    exec (.cmpltc ra lit rc) s = .next (s.finish rc (cmpLt (s.readReg ra) (sext lit))) := rfl

/-! ## The rules -/

/-- Settles O19: R161 and R162. -/
theorem cmpeqAndCmpeqcWriteTruth : Obligations.CmpeqAndCmpeqcWriteTruth := by
  unfold Obligations.CmpeqAndCmpeqcWriteTruth
  refine ⟨decode_opWord (op := 0x24#6) fun w h => by simp [decode, h],
    decode_opcWord (op := 0x34#6) fun w h => by simp [decode, h], fun ra rb rc s => ?_, fun ra lit rc s => ?_⟩
  · rw [exec_cmpeq, cmpEq_eq_ite]
    exact ⟨_, rfl, finish_computes s rc _⟩
  · rw [exec_cmpeqc, cmpEq_sext]
    exact ⟨_, rfl, finish_computes s rc _⟩

/-- Settles O20: R163 and R164. -/
theorem cmpleAndCmplecWriteSignedOrder : Obligations.CmpleAndCmplecWriteSignedOrder := by
  unfold Obligations.CmpleAndCmplecWriteSignedOrder
  refine ⟨decode_opWord (op := 0x26#6) fun w h => by simp [decode, h],
    decode_opcWord (op := 0x36#6) fun w h => by simp [decode, h], fun ra rb rc s => ?_, fun ra lit rc s => ?_⟩
  · rw [exec_cmple, cmpLe_eq_ite]
    exact ⟨_, rfl, finish_computes s rc _⟩
  · rw [exec_cmplec, cmpLe_sext]
    exact ⟨_, rfl, finish_computes s rc _⟩

/-- Settles O21: R165 and R166. -/
theorem cmpltAndCmpltcWriteSignedOrder : Obligations.CmpltAndCmpltcWriteSignedOrder := by
  unfold Obligations.CmpltAndCmpltcWriteSignedOrder
  refine ⟨decode_opWord (op := 0x25#6) fun w h => by simp [decode, h],
    decode_opcWord (op := 0x35#6) fun w h => by simp [decode, h], fun ra rb rc s => ?_, fun ra lit rc s => ?_⟩
  · rw [exec_cmplt, cmpLt_eq_ite]
    exact ⟨_, rfl, finish_computes s rc _⟩
  · rw [exec_cmpltc, cmpLt_sext]
    exact ⟨_, rfl, finish_computes s rc _⟩

end Sys2Proof.Machine
end

section
/-!
Exceptions and the mode (60_exceptions.md R204, R208, R219). Exception entry is `takeException_enters`, with the updated PC
in a register that is not r31; a vector is two zero bits after a parameter. The mode is bit 31 of the PC: `finish`, `branch`
and the end of ST keep it, JMP ANDs it with bit 31 of its register, and exception entry sets it.
-/

namespace Sys2Proof.Machine

open Sys2Proof.Safety

/-! ## Exception entry (R204, R208) -/

/-- XP is a register that keeps what is written to it. -/
theorem takeException_readReg_xp (s : State) (kind : ExceptionKind) :
    (s.takeException kind).readReg xp = incPc s.pc := by
  rw [takeException_registers s kind xp, if_neg (by decide), if_pos rfl]

/-- Two zero bits after a value multiply it by 4. -/
theorem toNat_append_zero_two (b : BitVec 30) : (b ++ 0#2 : Word).toNat = 4 * b.toNat := by
  have happend : (b ++ 0#2 : Word).toNat = b.toNat <<< 2 ||| 0 := BitVec.toNat_append b 0#2
  rw [happend, Nat.or_zero, Nat.shiftLeft_eq]
  omega

theorem vector_illegalInstruction_toNat (p : Platform) :
    (vector p .illegalInstruction).toNat = 4 * p.vecIllegal.toNat := toNat_append_zero_two _

theorem vector_interrupt_toNat (p : Platform) {k : Nat} (h : k < p.vecIrq.length) :
    (vector p (.interrupt k)).toNat = 4 * p.vecIrq[k].toNat := by
  have hlisted : p.vecIrq.getD k 0#30 = p.vecIrq[k] := List.getD_eq_getElem _ _ h
  rw [vector, hlisted, toNat_append_zero_two]

/-- Settles O34: R204 by `takeException_enters`, and R208. From user mode bit 31 of the updated PC is 0. -/
theorem exceptionEntrySavesAndVectors : Obligations.ExceptionEntrySavesAndVectors := by
  unfold Obligations.ExceptionEntrySavesAndVectors
  refine ⟨fun s kind huser => ?_, vector_illegalInstruction_toNat, fun p k => vector_interrupt_toNat p⟩
  have hxp := takeException_readReg_xp s kind
  have hbit : (incPc s.pc).getLsbD 31 = false := (incPc_bit31 s.pc).trans huser
  exact ⟨takeException_enters s kind, hxp ▸ hbit, hxp⟩

/-! ## The mode after each operation -/

@[simp] theorem State.writeReg_supervisor (s : State) (rc : RegNum) (v : Word) :
    (s.writeReg rc v).supervisor = s.supervisor := by
  simp [State.supervisor]

@[simp] theorem State.advance_supervisor (s : State) : s.advance.supervisor = s.supervisor := incPc_bit31 s.pc

@[simp] theorem State.finish_supervisor (s : State) (rc : RegNum) (v : Word) :
    (s.finish rc v).supervisor = s.supervisor := by
  simp [State.finish]

theorem branchTarget_bit31 (p : Word) (lit : Lit) : (branchTarget p lit).getLsbD 31 = p.getLsbD 31 :=
  (pcRel_bit31 _ _).trans (incPc_bit31 p)

@[simp] theorem branch_supervisor (taken : Bool) (lit : Lit) (rc : RegNum) (s : State) :
    (branch taken lit rc s).supervisor = s.supervisor := by
  cases taken
  · exact incPc_bit31 s.pc
  · exact branchTarget_bit31 s.pc lit

@[simp] theorem State.returnThrough_supervisor (s : State) (target : Word) :
    (s.returnThrough target).supervisor = (s.supervisor && target.getLsbD 31) := jumpPc_bit31 s.pc target

/-! ## The mode after an instruction and after a step (R219) -/

/-- What an instruction can do to the mode: keep it, AND it with bit 31 of JMP's register, or enter the illegal instruction
exception from user mode. -/
theorem exec_next_mode {i : Instr} {s t : State} (h : exec i s = .next t) :
    t.supervisor = s.supervisor ∨
      (∃ ra rc, i = .jmp ra rc ∧ t.supervisor = (s.supervisor && (s.readReg ra).getLsbD 31)) ∨
      (s.supervisor = false ∧ t = s.takeException .illegalInstruction) := by
  rcases exec_next_cases h with ⟨rc, v, rfl⟩ | ⟨rc, lit, ra, n, -, -, rfl⟩ | ⟨ra, lit, rc, -, rfl⟩ |
    ⟨ra, lit, rc, -, rfl⟩ | ⟨ra, rc, rfl, rfl⟩ | ⟨huser, -, rfl⟩
  · exact .inl (State.finish_supervisor s rc v)
  · exact .inl (State.advance_supervisor _)
  · exact .inl (branch_supervisor _ lit rc s)
  · exact .inl (branch_supervisor _ lit rc s)
  · exact .inr (.inl ⟨ra, rc, rfl, by rw [State.returnThrough_supervisor, State.writeReg_supervisor]⟩)
  · exact .inr (.inr ⟨huser, rfl⟩)

/-- An instruction that takes user mode to supervisor mode enters the illegal instruction exception. -/
theorem exec_enters_supervisor {i : Instr} {s t : State} (h : exec i s = .next t) (hs : s.supervisor = false)
    (ht : t.supervisor = true) : t = s.takeException .illegalInstruction := by
  rcases exec_next_mode h with hkept | ⟨ra, rc, -, hjump⟩ | ⟨-, hentry⟩
  · simp [hkept, hs] at ht
  · simp [hjump, hs] at ht
  · exact hentry

/-- An instruction that takes supervisor mode to user mode is a JMP through a register with bit 31 clear. -/
theorem exec_leaves_supervisor {i : Instr} {s t : State} (h : exec i s = .next t) (hs : s.supervisor = true)
    (ht : t.supervisor = false) : ∃ ra rc, i = .jmp ra rc ∧ (s.readReg ra).getLsbD 31 = false := by
  rcases exec_next_mode h with hkept | ⟨ra, rc, hi, hjump⟩ | ⟨huser, -⟩
  · simp [hkept, hs] at ht
  · exact ⟨ra, rc, hi, by simpa [hjump, hs] using ht⟩
  · simp [huser] at hs

/-- A step from user mode to supervisor mode enters an exception, on the state whose boundary has been passed. -/
theorem step_enters_supervisor {s t : State} (h : step s = .next t) (hs : s.supervisor = false)
    (ht : t.supervisor = true) : ∃ kind, t = s.passBoundary.takeException kind := by
  rcases step_next_cases h with ⟨k, -, -, hinterrupt⟩ | ⟨-, w, -, hexec⟩
  · exact ⟨.interrupt k, hinterrupt⟩
  · rw [atInstruction_user hs] at hexec
    exact ⟨.illegalInstruction, exec_enters_supervisor hexec hs ht⟩

/-- A step from supervisor mode to user mode executes a JMP through a register with bit 31 clear. -/
theorem step_leaves_supervisor {s t : State} (h : step s = .next t) (hs : s.supervisor = true)
    (ht : t.supervisor = false) :
    ∃ w ra rc, s.fetch = .ok w ∧ decode w = .jmp ra rc ∧ (s.readReg ra).getLsbD 31 = false := by
  rcases step_next_cases h with ⟨k, huser, -, -⟩ | ⟨-, w, hfetch, hexec⟩
  · simp [huser] at hs
  · rw [atInstruction_supervisor hs] at hexec
    obtain ⟨ra, rc, hjmp, hbit⟩ := exec_leaves_supervisor hexec hs ht
    exact ⟨w, ra, rc, hfetch, hjmp, hbit⟩

/-- Settles O42: the three sentences of R219. -/
theorem modeChangesOnlyByExceptionAndJmp : Obligations.ModeChangesOnlyByExceptionAndJmp := by
  unfold Obligations.ModeChangesOnlyByExceptionAndJmp
  refine ⟨fun s t h hs ht => ?_, fun s t => step_leaves_supervisor, fun p regs m q => ?_⟩
  · obtain ⟨kind, rfl⟩ := step_enters_supervisor h hs ht
    exact ⟨kind, takeException_enters s.passBoundary kind⟩
  · rw [State.supervisor, State.powerUp_pc]
    decide

end Sys2Proof.Machine
end

section
/-!
The state after reset (70_reset_and_hazards.md R240). `State.powerUp` fixes the PC alone: the mode and the address of the
first fetch are what that PC presents, and the registers and the memory are the ones given.
-/

namespace Sys2Proof.Machine

@[simp] theorem State.powerUp_regs (p : Platform) (regs : Vector Word 31) (m : Memory) (q : List (Option Nat)) :
    (State.powerUp p regs m q).regs = regs := rfl

/-- A register that is stored reads as the file holds it. -/
theorem State.readReg_of_lt (s : State) {r : RegNum} (h : r.toNat < 31) : s.readReg r = s.regs[r.toNat] := dif_pos h

/-- The address that the PC of reset presents is 0: bit 31, its one bit, is the Supervisor bit. -/
theorem State.powerUp_pcAddress (p : Platform) (regs : Vector Word 31) (m : Memory) (q : List (Option Nat)) :
    (pcAddress (State.powerUp p regs m q).pc).toNat = 0 := by
  rw [State.powerUp_pc, pcAddress_toNat]
  decide

/-- Settles O50: R240. That the processor starts in supervisor mode is the third sentence of R219. -/
theorem resetStartsInSupervisorModeAtZero : Obligations.ResetStartsInSupervisorModeAtZero := by
  unfold Obligations.ResetStartsInSupervisorModeAtZero
  obtain ⟨-, -, hsupervisor⟩ := modeChangesOnlyByExceptionAndJmp
  refine ⟨fun p regs m q => ⟨State.powerUp_pc p regs m q, hsupervisor p regs m q, State.powerUp_pcAddress p regs m q,
    State.powerUp_mem p regs m q, State.readReg_r31 _, fun r h => ?_⟩, ?_⟩
  · rw [State.readReg_of_lt _ h]
    simp only [State.powerUp_regs]
  · exact ⟨Config.platform, Vector.replicate 31 Config.resetRegister, [], [], rfl⟩

end Sys2Proof.Machine
end

section
/-!
Encoding and decoding undo each other (30_encoding.md R81, R82, R87 to R91, R99). An encoded instruction is its opcode before
its operand bits, so the row of its opcode reads its operands back. Conversely a word is its opcode before bits 25:0, so
encoding a decoded word changes at most bits 25:0: what is put back there is said once, in `operandBits_decode`.
-/

namespace Sys2Proof

/-! ## Decoding an encoded instruction -/

/-- Settles O1: the row of `decode` that the opcode selects reads each field where the encoder wrote it. `whnf` takes that
row without visiting the other 63. -/
theorem decodeOfEncode : Obligations.DecodeOfEncode := by
  unfold Obligations.DecodeOfEncode
  intro i
  cases i
  all_goals
    rw [encode, decode, Laws.EncodedOpcode.opcodeField_append]
    conv_lhs => whnf
    simp only [operandBits, bitsField_word, raField_op, rbField_op, rcField_op, raField_opc, litField_opc, rcField_opc]

/-- The encoding tells instructions apart. -/
theorem encode_injective : Function.Injective encode := fun i j h => by
  rw [← decodeOfEncode i, h, decodeOfEncode j]

/-! ## A word as its fields -/

theorem bitsField_getLsbD (w : Word) {i : Nat} (h : i < 26) : (bitsField w).getLsbD i = w.getLsbD i := by
  simp [bitsField, h]

theorem opcodeField_append_bitsField (w : Word) : (opcodeField w ++ bitsField w : Word) = w := by
  apply BitVec.eq_of_getLsbD_eq
  intro i hi
  rw [getLsbD_word]
  split
  · next hlow => exact bitsField_getLsbD w hlow
  · next hhigh => simp [opcodeField, show i - 26 < 6 by omega, show 26 + (i - 26) = i by omega]

/-- An opcode before other operand bits is the word exactly where the bits are the word's. -/
theorem opcodeField_append_eq_iff (w : Word) (b : BitVec 26) :
    (opcodeField w ++ b : Word) = w ↔ b = bitsField w := by
  constructor
  · intro h
    rw [← bitsField_word (opcodeField w) b, h]
  · rintro rfl
    exact opcodeField_append_bitsField w

/-- The fields of format OPC with any literal are bits 25:0 exactly where the literal is the word's. -/
theorem opcFields_eq_bitsField_iff_lit (w : Word) (lit : Lit) :
    opcFields (rcField w) (raField w) lit = bitsField w ↔ litField w = lit := by
  constructor
  · intro h
    rw [← opcodeField_append_bitsField w, ← h, litField_opc]
  · rintro rfl
    apply BitVec.eq_of_getLsbD_eq
    intro i hi
    simp only [getLsbD_opcFields, bitsField_getLsbD w hi, litField, raField, rcField, BitVec.getLsbD_extractLsb']
    grind

/-- The fields of format OPC with any ra field are bits 25:0 exactly where that field is the word's. -/
theorem opcFields_eq_bitsField_iff_ra (w : Word) (ra : RegNum) :
    opcFields (rcField w) ra (litField w) = bitsField w ↔ raField w = ra := by
  constructor
  · intro h
    rw [← opcodeField_append_bitsField w, ← h, raField_opc]
  · rintro rfl
    exact (opcFields_eq_bitsField_iff_lit w _).2 rfl

/-- The fields of format OP are bits 25:0 exactly where bits 10:0 are zero. -/
theorem opFields_eq_bitsField_iff (w : Word) :
    opFields (rcField w) (raField w) (rbField w) = bitsField w ↔ w.extractLsb' 0 11 = 0#11 := by
  constructor
  · intro h
    apply BitVec.eq_of_getLsbD_eq
    intro i hi
    have hbit := congrArg (·.getLsbD i) h
    simpa [getLsbD_opFields, bitsField_getLsbD w (show i < 26 by omega), hi] using hbit.symm
  · intro h
    apply BitVec.eq_of_getLsbD_eq
    intro i hi
    have hbit := congrArg (·.getLsbD i) h
    simp only [BitVec.getLsbD_extractLsb', BitVec.getLsbD_zero] at hbit
    simp only [getLsbD_opFields, bitsField_getLsbD w hi, rbField, raField, rcField, BitVec.getLsbD_extractLsb']
    grind

/-! ## Encoding a decoded word -/

/-- Bits 25:0 that encoding a decoded word puts back: those of the word, but for the ones that decode ignores (R89 to R91). -/
theorem operandBits_decode (w : Word) :
    operandBits (decode w) =
      if opcodeField w ∈ opOpcodes then opFields (rcField w) (raField w) (rbField w)
      else if opcodeField w = 0x1B#6 then opcFields (rcField w) (raField w) 0#16
      else if opcodeField w = 0x1F#6 then opcFields (rcField w) 0#5 (litField w)
      else bitsField w := by
  have hopc : opcFields (rcField w) (raField w) (litField w) = bitsField w :=
    (opcFields_eq_bitsField_iff_lit w _).2 rfl
  unfold decode
  split
  case h_64 =>
    have hlast : opcodeField w = 0x3F#6 := opcode_eq_3F_of_ne fun n hn => by interval_cases n <;> assumption
    simp [hlast, opOpcodes, operandBits]
  all_goals
    next hop => simp [hop, opOpcodes, operandBits, hopc]

/-- Encoding a decoded word keeps its opcode and puts back the operand bits of what it decodes to. -/
theorem encode_decode (w : Word) : encode (decode w) = opcodeField w ++ operandBits (decode w) := by
  rw [encode, opcodeOf_decode]

/-- The bits that have to be zero, by the formats that leave some unused (R89 to R91). -/
theorem wordWellFormed_iff (w : Word) :
    wordWellFormed w = true ↔
      if opcodeField w ∈ opOpcodes then w.extractLsb' 0 11 = 0#11
      else if opcodeField w = 0x1B#6 then litField w = 0#16
      else if opcodeField w = 0x1F#6 then raField w = 0#5
      else True := by
  grind [wordWellFormed, opcodeField, litField, raField]

/-- Settles O2: the bits put back are the word's exactly where the ignored ones are zero, by format. -/
theorem encodeOfDecodeOfWellFormed : Obligations.EncodeOfDecodeOfWellFormed := by
  unfold Obligations.EncodeOfDecodeOfWellFormed
  intro w
  rw [encode_decode, opcodeField_append_eq_iff, operandBits_decode, wordWellFormed_iff]
  split_ifs
  · exact opFields_eq_bitsField_iff w
  · exact opcFields_eq_bitsField_iff_lit w 0#16
  · exact opcFields_eq_bitsField_iff_ra w 0#5
  · simp

/-- Words with one opcode decode alike where decoding leaves them the same operand bits. -/
theorem decode_congr {w w' : Word} (hop : opcodeField w = opcodeField w')
    (hbits : operandBits (decode w) = operandBits (decode w')) : decode w = decode w' :=
  encode_injective (by rw [encode_decode, encode_decode, hop, hbits])

/-- Settles O4: in each of the three formats the operand bits left are made of the fields that agree. -/
theorem decodeIgnoresUnusedBits : Obligations.DecodeIgnoresUnusedBits := by
  unfold Obligations.DecodeIgnoresUnusedBits
  intro w w' hop hrc
  refine ⟨fun hmem hra hrb => decode_congr hop ?_, fun hjmp hra => decode_congr hop ?_,
    fun hldr hlit => decode_congr hop ?_⟩
  · rw [operandBits_decode, operandBits_decode, ← hop, if_pos hmem, if_pos hmem, hrc, hra, hrb]
  · simp [operandBits_decode, ← hop, hjmp, opOpcodes, hrc, hra]
  · simp [operandBits_decode, ← hop, hldr, opOpcodes, hrc, hlit]

/-- Settles O5: the words of 95_test_vectors.md, by evaluation. -/
theorem decodeOfWrittenWords : Obligations.DecodeOfWrittenWords := by
  unfold Obligations.DecodeOfWrittenWords
  decide

/-! ## Decoding from bytes (20_memory.md R54) -/

theorem decodeBytes_wordBytes (o : ByteOrder) (w : Word) (rest : List Byte) :
    decodeBytes o (wordBytes o w ++ rest) = .ok (decode w, rest) := by
  simp [wordBytes, decodeBytes]

/-- Settles O6: the bytes of a word put together again give the word; the other lists have at most three bytes. -/
theorem decodeOfBytesOfWord : Obligations.DecodeOfBytesOfWord := by
  unfold Obligations.DecodeOfBytesOfWord
  refine ⟨decodeBytes_wordBytes, fun o l hshort => ?_⟩
  unfold decodeBytes
  split
  · simp only [List.length_cons] at hshort
    omega
  · rfl

end Sys2Proof
end

section
/-!
The PC, the addresses and the literals as integers (10_state.md R27, 20_memory.md R55, 30_encoding.md R97). PC arithmetic is
addition of 31-bit numbers beside bit 31, so every address is a sum modulo 2^31, and a literal whose distance is the one to a
label makes that sum the label.
-/

namespace Sys2Proof.Machine

open Sys2Proof.Safety

/-! ## The low 31 bits as sums -/

theorem incPc_toNat_mod (p : Word) : (incPc p).toNat % 2 ^ 31 = (p.toNat + 4) % 2 ^ 31 := by
  have hlow := congrArg BitVec.toNat (incPc_low p)
  rw [BitVec.toNat_add, low_toNat, low_toNat] at hlow
  rw [hlow, Nat.mod_add_mod]
  rfl

theorem pcRel_toNat_mod (p d : Word) : (pcRel p d).toNat % 2 ^ 31 = (p.toNat + d.toNat) % 2 ^ 31 := by
  have hlow := congrArg BitVec.toNat (pcRel_low p d)
  rw [BitVec.toNat_add, low_toNat, low_toNat, low_toNat] at hlow
  rw [hlow, ← Nat.add_mod]

/-- Settles O8: bit 31 is kept, and the low 31 bits are sums. -/
theorem pcArithmeticKeepsSupervisorBit : Obligations.PcArithmeticKeepsSupervisorBit := by
  unfold Obligations.PcArithmeticKeepsSupervisorBit
  exact ⟨fun p => ⟨incPc_bit31 p, incPc_toNat_mod p⟩, fun p d => ⟨pcRel_bit31 p d, pcRel_toNat_mod p d⟩⟩

/-- The target of a branch as an integer (42_control_transfer.md R141). -/
theorem branchTarget_toNat_mod (p : Word) (lit : Lit) :
    ((branchTarget p lit).toNat % 2 ^ 31 : Int) = (p.toNat + 4 + 4 * lit.toInt) % 2 ^ 31 := by
  have htarget := pcRel_toNat_mod (incPc p) (displacement lit)
  have hinc := incPc_toNat_mod p
  have hdisp := displacement_toNat lit
  rw [branchTarget]
  omega

/-! ## The three kinds of address -/

/-- Settles O25: a 32-bit sum for LD and ST, the low 31 bits of the branch target for LDR, and of the PC for the fetch. -/
theorem addressesPresentedToMemory : Obligations.AddressesPresentedToMemory := by
  unfold Obligations.AddressesPresentedToMemory
  refine ⟨fun s ra lit => add_sext_toNat (s.readReg ra) lit, fun s lit => ?_, pcAddress_toNat⟩
  rw [relativeAddress, pcAddress_toNat]
  exact_mod_cast branchTarget_toNat_mod s.pc lit

/-! ## The literal of a label -/

theorem labelWellFormed_iff (here label : Nat) :
    labelWellFormed here label = true ↔
      labelDistance here label % 4 = 0 ∧ -32767 * 4 ≤ labelDistance here label ∧
        labelDistance here label ≤ 32768 * 4 := by
  simp [labelWellFormed, labelAligned, labelInRange]

/-- The distance in words of a reachable label fits a literal, so that the literal is that distance. -/
theorem labelLiteral_toInt {here label : Nat} (h : labelWellFormed here label = true) :
    (BitVec.ofInt 16 (labelDistance here label / 4 - 1)).toInt = labelDistance here label / 4 - 1 := by
  obtain ⟨-, hlo, hhi⟩ := (labelWellFormed_iff here label).1 h
  rw [BitVec.toInt_ofInt, Int.bmod_eq_of_le] <;> omega

/-- Settles O7: the literal is the distance in words less one, so that the target is the sum of the two. -/
theorem labelLiteralReachesLabel : Obligations.LabelLiteralReachesLabel := by
  unfold Obligations.LabelLiteralReachesLabel
  refine ⟨fun here label _ hlabel hwf => ?_, fun here label hwf => ?_⟩
  · obtain ⟨haligned, -, -⟩ := (labelWellFormed_iff here label).1 hwf
    have hdistance : 4 * ((BitVec.ofInt 16 (labelDistance here label / 4 - 1)).toInt + 1) = (label : Int) - here := by
      rw [labelLiteral_toInt hwf]
      unfold labelDistance at haligned ⊢
      omega
    refine ⟨_, if_pos hwf, hdistance, fun pc hpc => ⟨?_, branchTarget_bit31 pc _⟩⟩
    have htarget := branchTarget_toNat_mod pc (BitVec.ofInt 16 (labelDistance here label / 4 - 1))
    omega
  · rw [labelLiteral, hwf, if_neg Bool.false_ne_true]

/-! ## The registers (10_state.md R20, R21) -/

/-- Settles O10. -/
theorem registerThirtyOneIsZeroAndDiscards : Obligations.RegisterThirtyOneIsZeroAndDiscards := by
  unfold Obligations.RegisterThirtyOneIsZeroAndDiscards
  exact ⟨State.readReg_r31, State.writeReg_r31, writeReg_registers⟩

end Sys2Proof.Machine
end

section
/-!
DIV and DIVC (40_arithmetic.md R117, R118). Both are one division of two words, and the literal of DIVC, sign-extended, is
its own divisor as an integer; so each claim is proved once of the words and read off for both forms.
-/

namespace Sys2Proof.Machine

open Sys2Proof.Safety

/-! ## The meanings -/

/-- What DIV and DIVC do with their two operands. -/
def divide (rc : RegNum) (a b : Word) (s : State) : Host.Outcome State Fault Refusal :=
  orFault (quotient s.platform a b) fun q => .next (s.finish rc q)

theorem exec_div (ra rb rc : RegNum) (s : State) :
    exec (.div ra rb rc) s = divide rc (s.readReg ra) (s.readReg rb) s := rfl

theorem exec_divc (ra : RegNum) (lit : Lit) (rc : RegNum) (s : State) :
    exec (.divc ra lit rc) s = divide rc (s.readReg ra) (sext lit) s := rfl

/-! ## The truncated quotient -/

/-- Truncation toward zero divides the magnitudes and multiplies the signs. -/
theorem tdiv_eq_sign_mul (a b : Int) : a.tdiv b = a.sign * b.sign * ((a.natAbs / b.natAbs : Nat) : Int) := by
  rw [← Int.sign_mul_natAbs (a.tdiv b), Int.sign_tdiv, Int.natAbs_tdiv]
  split
  · next hlt => simp [Nat.div_eq_of_lt hlt]
  · rfl

/-- But for -2^31 by -1 the truncated quotient of two words is a signed word. -/
theorem quotient_toInt {a b : Word} (h : ¬ (a.toInt = -2 ^ 31 ∧ b.toInt = -1)) :
    (BitVec.ofInt 32 (a.toInt.tdiv b.toInt)).toInt = a.toInt.tdiv b.toInt := by
  have hcorner : a ≠ BitVec.intMin 32 ∨ b ≠ -1#32 := by
    by_contra hboth
    push Not at hboth
    exact h ⟨by rw [hboth.1]; rfl, by rw [hboth.2]; rfl⟩
  rw [BitVec.toInt_ofInt, ← BitVec.toInt_sdiv, BitVec.toInt_sdiv_of_ne_or_ne a b hcorner]

/-- Off the two corners a division completes with the truncated quotient. -/
theorem divide_truncates {a b : Word} (h0 : b.toInt ≠ 0) (h1 : ¬ (a.toInt = -2 ^ 31 ∧ b.toInt = -1)) (rc : RegNum)
    (s : State) : ∃ t v, divide rc a b s = .next t ∧ Computes s t rc v ∧
      v.toInt = a.toInt.sign * b.toInt.sign * ((a.toInt.natAbs / b.toInt.natAbs : Nat) : Int) := by
  have hquotient : quotient s.platform a b = .ok (BitVec.ofInt 32 (a.toInt.tdiv b.toInt)) := by
    rw [quotient, if_neg h0, if_neg h1]
  refine ⟨_, _, by rw [divide, hquotient, orFault], finish_computes s rc _, ?_⟩
  rw [quotient_toInt h1, tdiv_eq_sign_mul]

/-- Settles O14: R117 and R118. -/
theorem divAndDivcWriteTruncatedQuotient : Obligations.DivAndDivcWriteTruncatedQuotient := by
  unfold Obligations.DivAndDivcWriteTruncatedQuotient
  refine ⟨decode_opWord (op := 0x23#6) fun w h => by rw [decode, h]; rfl,
    decode_opcWord (op := 0x33#6) fun w h => by rw [decode, h]; rfl, fun ra rb rc s h0 h1 => ?_,
    fun ra lit rc s h0 h1 => ?_⟩
  · rw [exec_div]
    exact divide_truncates h0 h1 rc s
  · rw [exec_divc]
    rw [← sext_toInt lit] at h0 h1 ⊢
    exact divide_truncates h0 h1 rc s

/-! ## The two corners (D5, D6) -/

/-- A corner stops, or goes on with its free value, as its policy says. -/
theorem divide_corner {a b free : Word} {policy : QuotientPolicy} {stop : Fault} {s : State} (rc : RegNum)
    (h : quotient s.platform a b = quotientCorner policy stop free) :
    (policy = .fault → divide rc a b s = .fault stop) ∧
      (policy = .freeValue → ∃ t v, divide rc a b s = .next t ∧ Computes s t rc v) := by
  refine ⟨?_, ?_⟩
  · rintro rfl
    rw [divide, h, quotientCorner, orFault]
  · rintro rfl
    exact ⟨_, _, by rw [divide, h, quotientCorner, orFault], finish_computes s rc _⟩

theorem quotient_by_zero {a b : Word} (p : Platform) (h : b.toInt = 0) :
    quotient p a b = quotientCorner p.divByZero .divideByZero (Config.quotientByZero a) := if_pos h

theorem quotient_overflow {a b : Word} (p : Platform) (ha : a.toInt = -2 ^ 31) (hb : b.toInt = -1) :
    quotient p a b = quotientCorner p.divOverflow .divideOverflow Config.quotientOverflow := by
  rw [quotient, if_neg (by omega), if_pos ⟨ha, hb⟩]

/-- Settles O15: both corners of DIV, then both of DIVC. -/
theorem divAndDivcWithoutQuotient : Obligations.DivAndDivcWithoutQuotient := by
  unfold Obligations.DivAndDivcWithoutQuotient
  intro ra rb rc lit s
  rw [exec_div, exec_divc, ← sext_toInt lit]
  have hzero {b : Word} (h : b.toInt = 0) := divide_corner (a := s.readReg ra) rc (quotient_by_zero s.platform h)
  have hoverflow {b : Word} (ha : (s.readReg ra).toInt = -2 ^ 31) (hb : b.toInt = -1) :=
    divide_corner rc (quotient_overflow s.platform ha hb)
  exact ⟨fun h => (hzero h).1, fun h => (hzero h).2, fun ha hb => (hoverflow ha hb).1, fun ha hb => (hoverflow ha hb).2,
    fun h => (hzero h).1, fun h => (hzero h).2, fun ha hb => (hoverflow ha hb).1, fun ha hb => (hoverflow ha hb).2⟩

end Sys2Proof.Machine
end

section
/-!
SHL, SHR, SRA and their literal forms (45_shift.md R181 to R186). A shift by a five-bit count multiplies or divides by a power
of two, and the count is the second operand modulo 32 in both forms.
-/

namespace Sys2Proof.Machine

open Sys2Proof.Safety

/-! ## The shifts as integers -/

theorem shiftLeft_toNat (a : Word) (n : BitVec 5) : (shiftLeft a n).toNat = a.toNat * 2 ^ n.toNat % 2 ^ 32 := by
  rw [shiftLeft, BitVec.toNat_shiftLeft, Nat.shiftLeft_eq]

theorem shiftRight_toNat (a : Word) (n : BitVec 5) : (shiftRight a n).toNat = a.toNat / 2 ^ n.toNat := by
  rw [shiftRight, BitVec.toNat_ushiftRight, Nat.shiftRight_eq_div_pow]

theorem shiftRightArith_toInt (a : Word) (n : BitVec 5) :
    (shiftRightArith a n).toInt = a.toInt.fdiv (2 ^ n.toNat) := by
  rw [shiftRightArith, BitVec.toInt_sshiftRight, Int.shiftRight_eq_div_pow, Int.fdiv_eq_ediv_of_nonneg _ (by positivity)]
  norm_cast

/-! ## The meanings -/

theorem exec_shl (ra rb rc : RegNum) (s : State) :
    exec (.shl ra rb rc) s = .next (s.finish rc (shiftLeft (s.readReg ra) (countOfWord (s.readReg rb)))) := rfl

theorem exec_shlc (ra : RegNum) (lit : Lit) (rc : RegNum) (s : State) :
    exec (.shlc ra lit rc) s = .next (s.finish rc (shiftLeft (s.readReg ra) (countOfLit lit))) := rfl

theorem exec_shr (ra rb rc : RegNum) (s : State) :
    exec (.shr ra rb rc) s = .next (s.finish rc (shiftRight (s.readReg ra) (countOfWord (s.readReg rb)))) := rfl

theorem exec_shrc (ra : RegNum) (lit : Lit) (rc : RegNum) (s : State) :
    exec (.shrc ra lit rc) s = .next (s.finish rc (shiftRight (s.readReg ra) (countOfLit lit))) := rfl

theorem exec_sra (ra rb rc : RegNum) (s : State) :
    exec (.sra ra rb rc) s = .next (s.finish rc (shiftRightArith (s.readReg ra) (countOfWord (s.readReg rb)))) := rfl

theorem exec_srac (ra : RegNum) (lit : Lit) (rc : RegNum) (s : State) :
    exec (.srac ra lit rc) s = .next (s.finish rc (shiftRightArith (s.readReg ra) (countOfLit lit))) := rfl

/-! ## The rules -/

/-- Settles O22: R181 and R182. -/
theorem shlAndShlcShiftLeft : Obligations.ShlAndShlcShiftLeft := by
  unfold Obligations.ShlAndShlcShiftLeft
  refine ⟨decode_opWord (op := 0x2C#6) fun w h => by rw [decode, h]; rfl,
    decode_opcWord (op := 0x3C#6) fun w h => by rw [decode, h]; rfl,
    fun ra rb rc s => ⟨_, _, exec_shl ra rb rc s, finish_computes s rc _, ?_⟩,
    fun ra lit rc s => ⟨_, _, exec_shlc ra lit rc s, finish_computes s rc _, ?_⟩⟩
  · rw [shiftLeft_toNat, countOfWord_toNat]
  · rw [shiftLeft_toNat, countOfLit_toNat]

/-- Settles O23: R183 and R184. -/
theorem shrAndShrcShiftRightLogically : Obligations.ShrAndShrcShiftRightLogically := by
  unfold Obligations.ShrAndShrcShiftRightLogically
  refine ⟨decode_opWord (op := 0x2D#6) fun w h => by rw [decode, h]; rfl,
    decode_opcWord (op := 0x3D#6) fun w h => by rw [decode, h]; rfl,
    fun ra rb rc s => ⟨_, _, exec_shr ra rb rc s, finish_computes s rc _, ?_⟩,
    fun ra lit rc s => ⟨_, _, exec_shrc ra lit rc s, finish_computes s rc _, ?_⟩⟩
  · rw [shiftRight_toNat, countOfWord_toNat]
  · rw [shiftRight_toNat, countOfLit_toNat]

/-- Settles O24: R185 and R186. -/
theorem sraAndSracShiftRightArithmetically : Obligations.SraAndSracShiftRightArithmetically := by
  unfold Obligations.SraAndSracShiftRightArithmetically
  refine ⟨decode_opWord (op := 0x2E#6) fun w h => by rw [decode, h]; rfl,
    decode_opcWord (op := 0x3E#6) fun w h => by rw [decode, h]; rfl,
    fun ra rb rc s => ⟨_, _, exec_sra ra rb rc s, finish_computes s rc _, ?_⟩,
    fun ra lit rc s => ⟨_, _, exec_srac ra lit rc s, finish_computes s rc _, ?_⟩⟩
  · rw [shiftRightArith_toInt, countOfWord_toNat]
  · rw [shiftRightArith_toInt, countOfLit_toNat]

end Sys2Proof.Machine
end

section
/-!
LD, LDR and ST (44_load_store.md R171 to R173, 20_memory.md R51, R52, R59, R62). Where an access reaches is fixed by its address
and the platform; a read answers the word there, and ST answers a next state exactly where its access reaches one.
-/

namespace Sys2Proof.Machine

open Sys2Proof.Safety

/-! ## Where an access reaches (20_memory.md R51, R52) -/

theorem mapped_iff (p : Platform) (a : Word) :
    mapped p a = true ↔ ∀ r ∈ p.holes, ¬ (r.base ≤ a.toNat ∧ a.toNat < r.base + r.size) := by
  simp [mapped, regionCovers]

theorem wordAddress_aligned (p : Platform) {a : Word} (h : a.toNat % 4 = 0) : wordAddress p a = .ok a :=
  if_pos ((aligned_iff a).2 h)

theorem wordAddress_misaligned_fault {p : Platform} {a : Word} (h : a.toNat % 4 ≠ 0) (hp : p.misaligned = .fault) :
    wordAddress p a = .error .misalignedAccess := by
  rw [wordAddress, if_neg (mt (aligned_iff a).1 h), hp]

theorem wordAddress_misaligned_clear {p : Platform} {a : Word} (h : a.toNat % 4 ≠ 0)
    (hp : p.misaligned = .clearLowBits) : wordAddress p a = .ok (a &&& 0xFFFFFFFC#32) := by
  rw [wordAddress, if_neg (mt (aligned_iff a).1 h), hp]

theorem accessAt_mapped {p : Platform} {a b : Word} (h : wordAddress p a = .ok b) (hm : mapped p b = true) :
    accessAt p a = .ok b.toNat := by
  simp [accessAt, h, hm]

theorem accessAt_unmapped {p : Platform} {a b : Word} (h : wordAddress p a = .ok b) (hm : mapped p b = false) :
    accessAt p a = .error .unmappedAccess := by
  simp [accessAt, h, hm]

/-- An access sees its address only through the word's address. -/
theorem accessAt_congr {p : Platform} {a b : Word} (h : wordAddress p a = wordAddress p b) :
    accessAt p a = accessAt p b := by
  unfold accessAt
  rw [h]

/-- Clearing the low two bits gives the multiple of 4 at or below. -/
theorem masked_eq_ofNat (a : Word) : a &&& 0xFFFFFFFC#32 = BitVec.ofNat 32 (a.toNat / 4 * 4) := by
  rw [← masked_toNat, BitVec.ofNat_toNat, BitVec.setWidth_eq]

/-- Settles O26, by the address of the word that each kind of address gives. -/
theorem accessReachesOrStops : Obligations.AccessReachesOrStops := by
  unfold Obligations.AccessReachesOrStops
  refine ⟨mapped_iff, fun p a ha => accessAt_mapped (wordAddress_aligned p ha),
    fun p a ha => accessAt_unmapped (wordAddress_aligned p ha), fun p a ha hp => ?_, fun p a ha hp => ?_⟩
  · rw [accessAt, wordAddress_misaligned_fault ha hp]
  · have hmultiple : (a &&& 0xFFFFFFFC#32).toNat % 4 = 0 := by
      rw [masked_toNat]
      omega
    rw [← masked_eq_ofNat]
    exact accessAt_congr ((wordAddress_misaligned_clear ha hp).trans (wordAddress_aligned p hmultiple).symm)

/-- LDR's address is a multiple of 4 where the PC is. -/
theorem relativeAddress_aligned {s : State} (lit : Lit) (h : s.pc.toNat % 4 = 0) :
    (relativeAddress s lit).toNat % 4 = 0 := by
  obtain ⟨-, hrelative, -⟩ := addressesPresentedToMemory
  have := hrelative s lit
  omega

/-! ## Reads and writes -/

theorem readWord_error {s : State} {a : Word} {f : Fault} (h : accessAt s.platform a = .error f) :
    s.readWord a = .error f := by
  rw [State.readWord, h]

theorem readWord_unwritten {s : State} {a : Word} {n : Nat} (h : accessAt s.platform a = .ok n)
    (hword : Memory.word? s.platform.byteOrder s.mem n = none) : s.readWord a = .error .unwrittenMemory := by
  simp [State.readWord, h, hword]

theorem writeWord_error {s : State} {a v : Word} {f : Fault} (h : accessAt s.platform a = .error f) :
    s.writeWord a v = .error f := by
  rw [State.writeWord, h]

/-- A read answers the same where the word that its access reaches is the same. -/
theorem readWord_congr {s t : State} {a : Word} (hp : t.platform = s.platform)
    (hword : ∀ m, accessAt s.platform a = .ok m →
      Memory.word? s.platform.byteOrder t.mem m = Memory.word? s.platform.byteOrder s.mem m) :
    t.readWord a = s.readWord a := by
  unfold State.readWord
  rw [hp]
  cases haccess : accessAt s.platform a with
  | error f => rfl
  | ok m => simp only [hword m haccess]

/-! ## The meanings -/

theorem exec_ld (ra : RegNum) (lit : Lit) (rc : RegNum) (s : State) :
    exec (.ld ra lit rc) s = orFault (s.readWord (effectiveAddress s ra lit)) fun w => .next (s.finish rc w) := rfl

theorem exec_ldr (lit : Lit) (rc : RegNum) (s : State) :
    exec (.ldr lit rc) s = orFault (s.readWord (relativeAddress s lit)) fun w => .next (s.finish rc w) := rfl

theorem exec_st (rc : RegNum) (lit : Lit) (ra : RegNum) (s : State) :
    exec (.st rc lit ra) s =
      orFault (s.writeWord (effectiveAddress s ra lit) (s.readReg rc)) fun t => .next t.advance := rfl

/-- The state with a word written from a byte address. -/
def State.store (s : State) (n : Nat) (v : Word) : State :=
  { s with mem := Memory.setWord s.platform.byteOrder s.mem n v }

/-- ST answers a next state exactly where its access reaches a word, which it writes. -/
theorem exec_st_next {rc : RegNum} {lit : Lit} {ra : RegNum} {s t : State} :
    exec (.st rc lit ra) s = .next t ↔
      ∃ n, accessAt s.platform (effectiveAddress s ra lit) = .ok n ∧ t = (s.store n (s.readReg rc)).advance := by
  rw [exec_st, orFault_next]
  constructor
  · rintro ⟨u, hwrite, hadvance⟩
    obtain ⟨n, haccess, rfl⟩ := writeWord_ok.1 hwrite
    cases hadvance
    exact ⟨n, haccess, rfl⟩
  · rintro ⟨n, haccess, rfl⟩
    exact ⟨_, writeWord_ok.2 ⟨n, haccess, rfl⟩, rfl⟩

/-- A load whose read answers a word completes with it. -/
theorem load_completes {r : Except Fault Word} {w : Word} (h : r = .ok w) (rc : RegNum) (s : State) :
    ∃ t, (orFault r fun v => .next (s.finish rc v)) = .next t ∧ Computes s t rc w := by
  subst h
  exact ⟨_, rfl, finish_computes s rc w⟩

/-! ## What they do and where they stop -/

/-- Settles O27: R171. -/
theorem ldLoadsWord : Obligations.LdLoadsWord := by
  unfold Obligations.LdLoadsWord
  refine ⟨decode_opcWord (op := 0x18#6) fun w h => by rw [decode, h]; rfl, fun ra lit rc s n w haccess hword => ?_⟩
  rw [exec_ld]
  exact load_completes (readWord_ok.2 ⟨n, haccess, hword⟩) rc s

/-- Settles O28: R172, the address being a multiple of 4 because the PC is. -/
theorem ldrLoadsWord : Obligations.LdrLoadsWord := by
  unfold Obligations.LdrLoadsWord
  refine ⟨decode_opcWord (op := 0x1F#6) (row := fun _ lit rc => .ldr lit rc) fun w h => by rw [decode, h]; rfl,
    fun lit rc s w hpc hmapped hword => ?_⟩
  have haccess := accessAt_mapped (wordAddress_aligned s.platform (relativeAddress_aligned lit hpc)) hmapped
  rw [exec_ldr]
  exact load_completes (readWord_ok.2 ⟨_, haccess, hword⟩) rc s

/-- Settles O29: R173. -/
theorem stStoresWord : Obligations.StStoresWord := by
  unfold Obligations.StStoresWord
  refine ⟨fun rc lit ra => decode_opcWord (op := 0x19#6) (row := fun ra lit rc => .st rc lit ra)
    (fun w h => by rw [decode, h]; rfl) ra lit rc, fun rc lit ra s n haccess => ?_⟩
  refine ⟨_, exec_st_next.2 ⟨n, haccess, rfl⟩, fun r => rfl, rfl, Memory.word?_setWord _ _ _ _, fun a ha => ?_, rfl, rfl⟩
  exact Memory.byte?_setWord_outside _ _ _ _ _ ha

/-- Settles O30: a stop of the read or the write is the stop of the instruction. -/
theorem loadsAndStoresStop : Obligations.LoadsAndStoresStop := by
  unfold Obligations.LoadsAndStoresStop
  refine ⟨fun ra lit rc s f haccess => ⟨?_, ?_⟩, fun ra lit rc s n haccess hword => ?_, fun lit rc s hpc hunmapped => ?_,
    fun lit rc s hpc hmapped hword => ?_⟩
  · rw [exec_ld, readWord_error haccess, orFault]
  · rw [exec_st, writeWord_error haccess, orFault]
  · rw [exec_ld, readWord_unwritten haccess hword, orFault]
  · have haddress := wordAddress_aligned s.platform (relativeAddress_aligned lit hpc)
    rw [exec_ldr, readWord_error (accessAt_unmapped haddress hunmapped), orFault]
  · have haddress := wordAddress_aligned s.platform (relativeAddress_aligned lit hpc)
    rw [exec_ldr, readWord_unwritten (accessAt_mapped haddress hmapped) hword, orFault]

/-- Settles O31: the word stored is read back, and two words that accesses reach are the same or do not overlap. -/
theorem storeIsSeenByLoadAndFetch : Obligations.StoreIsSeenByLoadAndFetch := by
  unfold Obligations.StoreIsSeenByLoadAndFetch
  intro rc lit ra s t h
  obtain ⟨n, haccess, rfl⟩ := exec_st_next.1 h
  have hread : (s.store n (s.readReg rc)).advance.readWord (effectiveAddress s ra lit) = .ok (s.readReg rc) :=
    readWord_ok.2 ⟨n, haccess, Memory.word?_setWord _ _ _ _⟩
  refine ⟨n, haccess, hread, fun p hp => ?_, fun a m ha hne => readWord_congr rfl fun m' ha' => ?_⟩
  · rw [State.fetch_setPc, hp, hread]
  · obtain rfl : m = m' := Except.ok.inj (ha.symm.trans ha')
    have hn := accessAt_ok haccess
    have hm := accessAt_ok ha
    exact Memory.word?_setWord_other _ _ _ _ _ (by omega)

end Sys2Proof.Machine
end

section
/-!
Control transfers and exceptions (42_control_transfer.md R141 to R143, 46_privileged_and_illegal.md R190 and R191,
60_exceptions.md R205, R206, R214). BEQ and BNE are one branch taken on opposite conditions; PRIV and the 31 illegal opcodes
raise one exception from user mode; and a return is JMP through XP, which exception entry left at the updated PC.
-/

namespace Sys2Proof.Machine

open Sys2Proof.Safety

/-! ## Branches and JMP -/

theorem exec_beq (ra : RegNum) (lit : Lit) (rc : RegNum) (s : State) :
    exec (.beq ra lit rc) s = .next (branch (s.readReg ra == 0#32) lit rc s) := rfl

theorem exec_bne (ra : RegNum) (lit : Lit) (rc : RegNum) (s : State) :
    exec (.bne ra lit rc) s = .next (branch (s.readReg ra != 0#32) lit rc s) := rfl

theorem exec_jmp (ra rc : RegNum) (s : State) :
    exec (.jmp ra rc) s = .next ((s.writeReg rc (incPc s.pc)).returnThrough (s.readReg ra)) := rfl

/-- Settles O32: R141 and R142. -/
theorem beqAndBneBranch : Obligations.BeqAndBneBranch := by
  unfold Obligations.BeqAndBneBranch
  refine ⟨decode_opcWord (op := 0x1D#6) fun w h => by rw [decode, h]; rfl,
    decode_opcWord (op := 0x1E#6) fun w h => by rw [decode, h]; rfl, fun ra lit rc s => ?_⟩
  refine ⟨_, _, branchTarget s.pc lit, exec_beq ra lit rc s, exec_bne ra lit rc s, ?_, ?_,
    branchTarget_bit31 s.pc lit, by exact_mod_cast branchTarget_toNat_mod s.pc lit⟩
  · simpa using branch_transfers (s.readReg ra == 0#32) lit rc s
  · simpa using branch_transfers (s.readReg ra != 0#32) lit rc s

/-- The low 31 bits that JMP loads are those of the register with the low two cleared. -/
theorem jumpPc_toNat_mod (p target : Word) : (jumpPc p target).toNat % 2 ^ 31 = target.toNat % 2 ^ 31 / 4 * 4 := by
  rw [← low_toNat, jumpPc_low, low_toNat, masked_toNat]
  omega

/-- Settles O33: R143. -/
theorem jmpJumpsThroughRegister : Obligations.JmpJumpsThroughRegister := by
  unfold Obligations.JmpJumpsThroughRegister
  refine ⟨fun ra rc lit => decode_opcWord (op := 0x1B#6) (row := fun ra _ rc => .jmp ra rc)
    (fun w h => by rw [decode, h]; rfl) ra lit rc, fun ra rc s => ?_⟩
  exact ⟨_, _, exec_jmp ra rc s, jump_transfers ra rc s, jumpPc_bit31 _ _, jumpPc_toNat_mod _ _⟩

/-! ## PRIV and the illegal opcodes -/

theorem raiseIllegal_user {s : State} (h : s.supervisor = false) :
    raiseIllegal s = .next (s.takeException .illegalInstruction) := by
  simp [raiseIllegal, h]

theorem raiseIllegal_supervisor {s : State} (h : s.supervisor = true) :
    raiseIllegal s = .fault .supervisorException := by
  simp [raiseIllegal, h]

/-- In user mode PRIV raises the illegal instruction exception, whatever the implementation. -/
theorem execPrivWith_user (implementation : Option PrivilegedMeaning) (bits : BitVec 26) {s : State}
    (h : s.supervisor = false) :
    execPrivWith implementation bits s = .next (s.takeException .illegalInstruction) := by
  simp [execPrivWith, h, raiseIllegal_user]

/-- In supervisor mode PRIV does PRIV_STEP. -/
theorem execPrivWith_supervisor (implementation : Option PrivilegedMeaning) (bits : BitVec 26) {s : State}
    (h : s.supervisor = true) : execPrivWith implementation bits s = privStep implementation bits s := by
  simp [execPrivWith, h]

theorem exec_priv (bits : BitVec 26) (s : State) : exec (.priv bits) s = execPrivWith none bits s := rfl

/-- The row of `decode` for opcode 0x00 (30_encoding.md R92). -/
theorem decode_priv {w : Word} (h : opcodeField w = 0x00#6) : decode w = .priv (bitsField w) := by
  rw [decode, h]
  rfl

/-- Settles O35: R190 with no implementation named. A word below 0x04000000 is its own bits 25:0. -/
theorem privTrapsInUserMode : Obligations.PrivTrapsInUserMode := by
  unfold Obligations.PrivTrapsInUserMode
  refine ⟨fun w hw => ?_, fun bits s huser => ?_, fun bits s hsupervisor => ?_⟩
  · have hop : opcodeField w = 0x00#6 := by
      apply BitVec.eq_of_toNat_eq
      simp only [opcodeField, BitVec.extractLsb'_toNat, Nat.shiftRight_eq_div_pow, BitVec.toNat_ofNat]
      omega
    refine ⟨_, decode_priv hop, ?_⟩
    simp only [bitsField, BitVec.extractLsb'_toNat, Nat.shiftRight_zero]
    omega
  · exact ⟨_, execPrivWith_user none bits huser, takeException_enters s .illegalInstruction⟩
  · rw [exec_priv, execPrivWith_supervisor none bits hsupervisor, privStep]

/-- The 31 illegal instructions are those with one of the 31 illegal opcodes. -/
theorem mem_illegalInstrs_iff (i : Instr) (bits : BitVec 26) :
    i ∈ illegalInstrs bits ↔ opcodeOf i ∈ illegalOpcodes ∧ operandBits i = bits := by
  cases i <;> simp [illegalInstrs, illegalOpcodes, opcodeOf, operandBits]

/-- Decoding an illegal word keeps its bits 25:0: it is of no format with unused bits. -/
theorem operandBits_decode_illegal {w : Word} (h : opcodeField w ∈ illegalOpcodes) :
    operandBits (decode w) = bitsField w := by
  have hformats : ∀ op ∈ illegalOpcodes, op ∉ opOpcodes ∧ op ≠ 0x1B#6 ∧ op ≠ 0x1F#6 := by decide
  obtain ⟨hop, hjmp, hldr⟩ := hformats _ h
  rw [operandBits_decode, if_neg hop, if_neg hjmp, if_neg hldr]

/-- Each of the 31 illegal instructions raises the illegal instruction exception (R191). -/
theorem exec_illegal (bits : BitVec 26) (s : State) : ∀ i ∈ illegalInstrs bits, exec i s = raiseIllegal s := by
  simp only [illegalInstrs, List.forall_mem_cons, List.not_mem_nil, false_imp_iff, implies_true, and_true]
  and_intros <;> rfl

/-- Settles O36: R191, by mode. -/
theorem illegalOpcodesTrapInUserMode : Obligations.IllegalOpcodesTrapInUserMode := by
  unfold Obligations.IllegalOpcodesTrapInUserMode
  refine ⟨fun w => ?_, fun bits s i hi huser => ?_, fun bits s i hi hsupervisor => ?_⟩
  · rw [mem_illegalInstrs_iff, opcodeOf_decode]
    exact and_iff_left_of_imp operandBits_decode_illegal
  · rw [exec_illegal bits s i hi, raiseIllegal_user huser]
    exact ⟨_, rfl, takeException_enters s .illegalInstruction⟩
  · rw [exec_illegal bits s i hi, raiseIllegal_supervisor hsupervisor]

/-! ## Return from an exception (60_exceptions.md R205, R206, R214) -/

/-- In user mode the updated PC is a number below 2^31. -/
theorem incPc_toNat_user {p : Word} (h : p.getLsbD 31 = false) : (incPc p).toNat = (p.toNat + 4) % 2 ^ 31 := by
  rw [toNat_eq_low ((incPc_bit31 p).trans h), low_toNat, incPc_toNat_mod]

/-- JMP to a multiple of 4 with bit 31 clear loads just that, from either mode. -/
theorem jumpPc_of_user_aligned (p : Word) {target : Word} (hbit : target.getLsbD 31 = false)
    (haligned : target.toNat % 4 = 0) : jumpPc p target = target := by
  refine word_ext ?_ ?_
  · rw [jumpPc_bit31, hbit, Bool.and_false]
  · rw [low_eq_iff, jumpPc_toNat_mod]
    omega

/-- `JMP (XP, r31)` writes no register, and loads the PC from XP. -/
theorem exec_return (s : State) : exec (.jmp xp r31) s = .next (s.returnThrough (s.readReg xp)) := by
  rw [exec_jmp, State.writeReg_r31]

/-- Settles O40: XP is the updated PC of the trap, a multiple of 4 with bit 31 clear. -/
theorem returnFromTrapResumesAfterIt : Obligations.ReturnFromTrapResumesAfterIt := by
  unfold Obligations.ReturnFromTrapResumesAfterIt
  intro s u kind huser hpc _ hxp
  rw [takeException_readReg_xp] at hxp
  have hbit : (incPc s.pc).getLsbD 31 = false := (incPc_bit31 s.pc).trans huser
  have haligned : (incPc s.pc).toNat % 4 = 0 := (aligned_iff _).1 (incPc_aligned ((aligned_iff _).2 hpc))
  refine ⟨_, exec_return u, ?_, ?_, fun r => rfl, fun a => rfl, rfl, rfl⟩
  · rw [State.returnThrough_pc, hxp, jumpPc_of_user_aligned u.pc hbit haligned]
  · rw [State.returnThrough_supervisor, hxp, hbit, Bool.and_false]

/-- Below the last instruction of user space the updated PC less 4 is the PC. -/
theorem incPc_sub_four {p : Word} (hbit : p.getLsbD 31 = false) (haligned : p.toNat % 4 = 0)
    (hlast : p.toNat ≠ 0x7FFFFFFC) : incPc p - sext 4 = p := by
  have hlt : p.toNat < 2 ^ 31 :=
    BitVec.toNat_lt_of_msb_false (w := 32) (by rw [BitVec.msb_eq_getLsbD_last]; exact hbit)
  have hinc : (incPc p).toNat = p.toNat + 4 := by
    rw [incPc_toNat_user hbit]
    omega
  have hfour : sext 4 = 4#32 := by decide
  rw [hfour]
  bv_omega

/-- Settles O41: SUBC takes XP back to the PC that the interrupt found, and JMP loads it. -/
theorem returnFromInterruptResumesIt : Obligations.ReturnFromInterruptResumesIt := by
  unfold Obligations.ReturnFromInterruptResumesIt
  intro s u k huser hpc hlast _ hxp
  rw [takeException_readReg_xp] at hxp
  obtain ⟨hregisters, -, hmemory, -⟩ := finish_computes u xp (u.readReg xp - sext 4)
  have hsubtracted : (u.finish xp (u.readReg xp - sext 4)).readReg xp = s.pc := by
    rw [hregisters xp, if_neg (by decide), if_pos rfl, hxp, incPc_sub_four huser hpc hlast]
  refine ⟨_, _, exec_subc xp 4 xp u, exec_return _, ?_, fun r hr => ?_, fun a => ?_, ?_, ?_⟩
  · rw [State.returnThrough_pc, hsubtracted, jumpPc_of_user_aligned _ huser hpc]
  · rw [State.returnThrough_readReg, readReg_of_registersAfterWrite hregisters hr]
  · rw [State.returnThrough_mem, hmemory a]
  · rw [State.returnThrough_irqRequests, State.finish_irqRequests]
  · rw [State.returnThrough_platform, State.finish_platform]

end Sys2Proof.Machine
end

section
/-!
What an instruction leaves of the PC, the memory and the surroundings (42_control_transfer.md R140, 44_load_store.md R170,
20_memory.md R66), each read off `exec_next_cases` once.
-/

namespace Sys2Proof.Machine

open Sys2Proof.Safety

/-- The PC after an instruction: the updated PC, or what a branch, JMP or exception entry loads. -/
theorem exec_next_pc {i : Instr} {s t : State} (h : exec i s = .next t) :
    t.pc = incPc s.pc ∨
      (∃ ra lit rc, (i = .beq ra lit rc ∨ i = .bne ra lit rc) ∧ t.pc = branchTarget s.pc lit) ∨
      (∃ ra rc, i = .jmp ra rc ∧ t.pc = jumpPc s.pc (s.readReg ra)) ∨
      (s.supervisor = false ∧ t = s.takeException .illegalInstruction) := by
  have hbranch (taken : Bool) (lit : Lit) (rc : RegNum) :
      (branch taken lit rc s).pc = incPc s.pc ∨ (branch taken lit rc s).pc = branchTarget s.pc lit := by
    cases taken
    · exact .inl rfl
    · exact .inr rfl
  rcases exec_next_cases h with ⟨rc, v, rfl⟩ | ⟨rc, lit, ra, n, -, -, rfl⟩ | ⟨ra, lit, rc, hi, rfl⟩ |
    ⟨ra, lit, rc, hi, rfl⟩ | ⟨ra, rc, hi, rfl⟩ | ⟨huser, -, ht⟩
  · exact .inl (State.finish_pc s rc v)
  · exact .inl rfl
  · exact (hbranch _ lit rc).imp_right fun hpc => .inl ⟨ra, lit, rc, .inl hi, hpc⟩
  · exact (hbranch _ lit rc).imp_right fun hpc => .inl ⟨ra, lit, rc, .inr hi, hpc⟩
  · exact .inr (.inr (.inl ⟨ra, rc, hi, by rw [State.returnThrough_pc, State.writeReg_pc]⟩))
  · exact .inr (.inr (.inr ⟨huser, ht⟩))

/-- The memory after an instruction: as it was, or with the word that ST writes. -/
theorem exec_next_mem {i : Instr} {s t : State} (h : exec i s = .next t) :
    t.mem = s.mem ∨ ∃ rc lit ra n, i = .st rc lit ra ∧ accessAt s.platform (effectiveAddress s ra lit) = .ok n ∧
      t.mem = Memory.setWord s.platform.byteOrder s.mem n (s.readReg rc) := by
  rcases exec_next_cases h with ⟨rc, v, rfl⟩ | ⟨rc, lit, ra, n, hi, haccess, rfl⟩ | ⟨ra, lit, rc, -, rfl⟩ |
    ⟨ra, lit, rc, -, rfl⟩ | ⟨ra, rc, -, rfl⟩ | ⟨-, -, rfl⟩
  case inr.inl => exact .inr ⟨rc, lit, ra, n, hi, haccess, rfl⟩
  all_goals
    left
    simp [branch]

/-- No instruction changes the requests or the parameters. -/
theorem exec_next_surroundings {i : Instr} {s t : State} (h : exec i s = .next t) : SameSurroundings s t := by
  rcases exec_next_cases h with ⟨rc, v, rfl⟩ | ⟨rc, lit, ra, n, -, -, rfl⟩ | ⟨ra, lit, rc, -, rfl⟩ |
    ⟨ra, lit, rc, -, rfl⟩ | ⟨ra, rc, -, rfl⟩ | ⟨-, -, rfl⟩
  all_goals simp [SameSurroundings, branch]

/-- The same under a PRIV_STEP (entry 27). -/
theorem execWith_next_surroundings {implementation : Option PrivilegedMeaning} {i : Instr} {s t : State}
    (h : execWith implementation i s = .next t) : SameSurroundings s t := by
  rcases execWith_next_cases h with hexec | ⟨-, bits, meaning, v, -, -, -, rfl⟩
  · exact exec_next_surroundings hexec
  · exact ⟨rfl, rfl⟩

/-- Settles O44, by what the PC is after an instruction. -/
theorem onlyControlTransfersLoadThePc : Obligations.OnlyControlTransfersLoadThePc := by
  unfold Obligations.OnlyControlTransfersLoadThePc
  intro i s t h
  rcases exec_next_pc h with hinc | ⟨ra, lit, rc, hi, -⟩ | ⟨ra, rc, hi, -⟩ | ⟨huser, rfl⟩
  · exact .inl hinc
  · exact .inr (.inl ⟨ra, lit, rc, hi⟩)
  · exact .inr (.inr (.inl ⟨ra, rc, hi⟩))
  · exact .inr (.inr (.inr ⟨huser, takeException_enters s .illegalInstruction⟩))

end Sys2Proof.Machine
end

section
/-!
What a step is, by what is due at its boundary (00_scope.md R3, 60_exceptions.md R206, R210, R211, R213): an interrupt is
entered, or the word at the PC is executed on the state whose boundary has been passed.
-/

namespace Sys2Proof.Machine

open Sys2Proof.Safety

/-! ## The state on which the instruction executes -/

@[simp] theorem atInstruction_pc (s : State) : (atInstruction s).pc = s.pc := by
  unfold atInstruction; split <;> rfl
@[simp] theorem atInstruction_mem (s : State) : (atInstruction s).mem = s.mem := by
  unfold atInstruction; split <;> rfl
@[simp] theorem atInstruction_platform (s : State) : (atInstruction s).platform = s.platform := by
  unfold atInstruction; split <;> rfl
@[simp] theorem atInstruction_visible (s : State) : (atInstruction s).visible = s.visible := by
  unfold atInstruction; split <;> rfl
@[simp] theorem atInstruction_readReg (s : State) (r : RegNum) : (atInstruction s).readReg r = s.readReg r := by
  unfold atInstruction; split <;> rfl
@[simp] theorem atInstruction_supervisor_bit (s : State) : (atInstruction s).supervisor = s.supervisor := by
  simp [State.supervisor]
@[simp] theorem atInstruction_fetch (s : State) : (atInstruction s).fetch = s.fetch := by
  unfold atInstruction; split <;> rfl
@[simp] theorem atInstruction_effectiveAddress (s : State) (ra : RegNum) (lit : Lit) :
    effectiveAddress (atInstruction s) ra lit = effectiveAddress s ra lit := by
  simp [effectiveAddress]
theorem atInstruction_irqRequests (s : State) :
    (atInstruction s).irqRequests = if s.supervisor then s.irqRequests else s.irqRequests.tail := by
  unfold atInstruction; split <;> rfl

/-! ## The step, by what is due -/

section
variable {execute execute' : Instr → State → Host.Outcome State Fault Refusal} {s t : State}

/-- Where no interrupt is due, the step executes the word that the fetch answers. -/
theorem stepBy_of_noInterruptDue (h : NoInterruptDue s) :
    stepBy execute s = orFault s.fetch fun w => execute (decode w) (atInstruction s) := by
  unfold stepBy
  cases hs : s.supervisor
  · have hnone : s.irqRequest = none := (irqRequest_eq_none_iff s).2 (h.resolve_left (by simp [hs]))
    rw [hnone, atInstruction_user hs]
    rfl
  · rw [atInstruction_supervisor hs]
    rfl

/-- Where a source's request stands in user mode, the step enters its exception. -/
theorem stepBy_of_irqRequest {k : Nat} (hs : s.supervisor = false) (hk : s.irqRequest = some k) :
    stepBy execute s = .next (s.passBoundary.takeException (.interrupt k)) := by
  simp [stepBy, hs, hk]

/-- The step sees what executes an instruction only at the word fetched, and only at one state. -/
theorem stepBy_congr
    (h : ∀ w, s.fetch = .ok w → execute (decode w) (atInstruction s) = execute' (decode w) (atInstruction s)) :
    stepBy execute s = stepBy execute' s := by
  by_cases hdue : NoInterruptDue s
  · rw [stepBy_of_noInterruptDue hdue, stepBy_of_noInterruptDue hdue]
    cases hfetch : s.fetch with
    | ok w => exact h w hfetch
    | error f => rfl
  · obtain ⟨hsupervisor, hstands⟩ := not_or.1 hdue
    have huser : s.supervisor = false := Bool.eq_false_iff.2 hsupervisor
    obtain ⟨k, hk⟩ := Option.ne_none_iff_exists'.1 (mt (irqRequest_eq_none_iff s).1 hstands)
    rw [stepBy_of_irqRequest huser hk, stepBy_of_irqRequest huser hk]

end

/-- Settles O37: the fetch of an aligned, mapped and written word answers it. -/
theorem stepExecutesDecodedInstruction : Obligations.StepExecutesDecodedInstruction := by
  unfold Obligations.StepExecutesDecodedInstruction
  refine ⟨fun s w hdue hpc hmapped hword => ?_, fun s f hdue hfetch => ?_⟩
  · have haddress : (pcAddress s.pc).toNat % 4 = 0 := by
      rw [pcAddress_toNat]
      omega
    have haccess := accessAt_mapped (wordAddress_aligned s.platform haddress) hmapped
    have hfetch : s.fetch = .ok w := readWord_ok.2 ⟨_, haccess, hword⟩
    rw [step, stepBy_of_noInterruptDue hdue, hfetch, orFault]
  · rw [step, stepBy_of_noInterruptDue hdue, hfetch, orFault]

/-- Settles O38: the request at the head is entered, on the state with that entry taken. -/
theorem interruptIsServedInUserMode : Obligations.InterruptIsServedInUserMode := by
  unfold Obligations.InterruptIsServedInUserMode
  intro s k rest huser hhead hsource
  have hrequest : s.irqRequest = some k := (irqRequest_eq_some_iff s k).2 ⟨⟨rest, hhead⟩, hsource⟩
  have htaken : s.passBoundary = withRequests rest s := by rw [State.passBoundary, hhead]; rfl
  refine ⟨_, stepBy_of_irqRequest huser hrequest, ?_⟩
  rw [htaken]
  exact takeException_enters (withRequests rest s) (.interrupt k)

/-- After a step under any PRIV_STEP the parameters are as they were, and the requests as the boundary leaves them. -/
theorem stepWith_next_surroundings {implementation : Option PrivilegedMeaning} {s t : State}
    (h : stepWith implementation s = .next t) : t.platform = s.platform ∧
      t.irqRequests = if s.supervisor then s.irqRequests else s.irqRequests.tail := by
  rcases stepBy_next_cases h with ⟨k, huser, -, rfl⟩ | ⟨-, w, -, hexec⟩
  · simp [huser]
  · obtain ⟨hrequests, hplatform⟩ := execWith_next_surroundings hexec
    rw [hplatform, hrequests, atInstruction_platform, atInstruction_irqRequests]
    exact ⟨rfl, rfl⟩

/-- With no implementation named the step under one is the step. -/
theorem stepWith_none (s : State) : stepWith none s = step s := stepBy_congr fun _ _ => execWith_none _ _

/-- Settles O46: the step is the step with no implementation named. -/
theorem stepKeepsPlatformAndRequests : Obligations.StepKeepsPlatformAndRequests := by
  unfold Obligations.StepKeepsPlatformAndRequests
  exact ⟨fun s t h => stepWith_next_surroundings ((stepWith_none s).trans h),
    fun implementation s t => stepWith_next_surroundings⟩

/-- Settles O43: an interrupt writes no memory, and an instruction only as ST. -/
theorem memoryChangesOnlyByStore : Obligations.MemoryChangesOnlyByStore := by
  unfold Obligations.MemoryChangesOnlyByStore
  intro s t h
  rcases step_next_cases h with ⟨k, -, -, rfl⟩ | ⟨-, w, hfetch, hexec⟩
  · left
    intro a
    simp
  · rcases exec_next_mem hexec with hmem | ⟨rc, lit, ra, n, hi, haccess, hmem⟩
    · left
      intro a
      rw [hmem, atInstruction_mem]
    · right
      simp only [atInstruction_platform, atInstruction_effectiveAddress, atInstruction_readReg, atInstruction_mem]
        at haccess hmem
      refine ⟨w, rc, lit, ra, n, hfetch, hi, haccess, ?_, fun a ha => ?_⟩
      · rw [hmem, Memory.word?_setWord]
      · rw [hmem, Memory.byte?_setWord_outside _ _ _ _ _ ha]

end Sys2Proof.Machine
end

section
/-!
The invariant: the PC is a multiple of 4 (10_state.md R26) and the memory is in canonical form. Each way to load the PC loads
a multiple of 4 (D12 for the vectors), and the one way to change the memory keeps its form.
-/

namespace Sys2Proof.Machine

open Sys2Proof.Safety

/-! ## Multiples of 4 -/

theorem branchTarget_aligned {p : Word} (h : p.extractLsb' 0 2 = 0#2) (lit : Lit) :
    (branchTarget p lit).extractLsb' 0 2 = 0#2 := by
  rw [aligned_iff] at h ⊢
  have := branchTarget_toNat_mod p lit
  omega

theorem jumpPc_aligned (p target : Word) : (jumpPc p target).extractLsb' 0 2 = 0#2 := by
  rw [aligned_iff]
  have := jumpPc_toNat_mod p target
  omega

theorem takeException_pc_aligned (s : State) (kind : ExceptionKind) :
    (s.takeException kind).pc.extractLsb' 0 2 = 0#2 := by
  obtain ⟨-, -, hpc, -, -⟩ := takeException_enters s kind
  have hvector := (aligned_iff _).1 (vector_low s.platform kind)
  rw [aligned_iff]
  omega

/-! ## The invariant after an instruction and after a step -/

theorem invariant_takeException {s : State} (h : Invariant s) (kind : ExceptionKind) :
    Invariant (s.takeException kind) := by
  obtain ⟨-, hmem⟩ := h
  exact ⟨takeException_pc_aligned s kind, (State.takeException_mem s kind).symm ▸ hmem⟩

theorem invariant_atInstruction {s : State} (h : Invariant s) : Invariant (atInstruction s) := by
  simpa [Invariant] using h

theorem exec_next_pc_aligned {i : Instr} {s t : State} (h : exec i s = .next t) (hpc : s.pc.extractLsb' 0 2 = 0#2) :
    t.pc.extractLsb' 0 2 = 0#2 := by
  rcases exec_next_pc h with hinc | ⟨ra, lit, rc, -, hbranch⟩ | ⟨ra, rc, -, hjump⟩ | ⟨-, rfl⟩
  · exact hinc ▸ incPc_aligned hpc
  · exact hbranch ▸ branchTarget_aligned hpc lit
  · exact hjump ▸ jumpPc_aligned s.pc _
  · exact takeException_pc_aligned s .illegalInstruction

theorem exec_next_mem_wf {i : Instr} {s t : State} (h : exec i s = .next t) (hmem : Memory.wf s.mem) :
    Memory.wf t.mem := by
  rcases exec_next_mem h with hsame | ⟨rc, lit, ra, n, -, haccess, hstored⟩
  · exact hsame ▸ hmem
  · obtain ⟨-, hbound⟩ := accessAt_ok haccess
    exact hstored ▸ Memory.setWord_wf _ _ _ _ hmem hbound

/-- Settles O54: an interrupt, an instruction as `exec` has it, or PRIV under an implementation that keeps the invariant. -/
theorem stepUnderImplementationKeepsInvariant : Obligations.StepUnderImplementationKeepsInvariant := by
  unfold Obligations.StepUnderImplementationKeepsInvariant
  intro implementation hkeeps s t hinv h
  rcases stepBy_next_cases h with ⟨k, -, -, rfl⟩ | ⟨-, w, -, hexecWith⟩
  · exact invariant_takeException (s := s.passBoundary) hinv _
  · have hat := invariant_atInstruction hinv
    obtain ⟨hpc, hmem⟩ := hat
    rcases execWith_next_cases hexecWith with hexec | ⟨hsupervisor, bits, meaning, v, -, hnamed, hdefined, rfl⟩
    · exact ⟨exec_next_pc_aligned hexec hpc, exec_next_mem_wf hexec hmem⟩
    · exact hkeeps meaning hnamed bits _ v hsupervisor ⟨hpc, hmem⟩ hdefined

/-- Settles O48: the step names no implementation. -/
theorem stepKeepsInvariant : Obligations.StepKeepsInvariant := by
  unfold Obligations.StepKeepsInvariant
  intro s t hinv h
  exact stepUnderImplementationKeepsInvariant none (fun _ hnamed => nomatch hnamed) s t hinv ((stepWith_none s).trans h)

/-- Settles O49: the PC of reset is 0x80000000, and the empty memory is in canonical form. -/
theorem invariantHoldsAfterReset : Obligations.InvariantHoldsAfterReset := by
  unfold Obligations.InvariantHoldsAfterReset
  have hpowerUp : ∀ p regs m q, Memory.wf m → Invariant (State.powerUp p regs m q) := fun p regs m q hm =>
    ⟨by rw [State.powerUp_pc]; decide, (State.powerUp_mem p regs m q).symm ▸ hm⟩
  exact ⟨hpowerUp, hpowerUp _ _ _ _ Memory.wf_nil⟩

end Sys2Proof.Machine
end

section
/-!
What an instruction does not see (60_exceptions.md R210, R211, R218). A change of state is transparent where the registers,
the addresses and the reads are as before and the ends of the meanings carry it along; the computations and the accesses to
memory, built of these alone, then carry it along too. The other mode and other requests are two such changes.
-/

namespace Sys2Proof.Machine

open Sys2Proof.Safety

/-! ## Transparent changes of state -/

/-- A change of state that computations and accesses to memory carry along without seeing it. -/
structure Transparent (f : State → State) : Prop where
  readReg : ∀ s r, (f s).readReg r = s.readReg r
  platform : ∀ s, (f s).platform = s.platform
  readWord : ∀ s a, (f s).readWord a = s.readWord a
  relativeAddress : ∀ s lit, relativeAddress (f s) lit = relativeAddress s lit
  finish : ∀ s rc v, (f s).finish rc v = f (s.finish rc v)
  store : ∀ s n v, ((f s).store n v).advance = f (s.store n v).advance

/-- What comes before the continuation does not see the change. -/
theorem mapNext_orFault {α : Type} (f : State → State) (r : Except Fault α)
    (k : α → Host.Outcome State Fault Refusal) : mapNext f (orFault r k) = orFault r fun a => mapNext f (k a) := by
  cases r <;> rfl

section
variable {f : State → State} (hf : Transparent f)
include hf

theorem Transparent.effectiveAddress_eq (s : State) (ra : RegNum) (lit : Lit) :
    effectiveAddress (f s) ra lit = effectiveAddress s ra lit := by
  rw [effectiveAddress, effectiveAddress, hf.readReg]

theorem Transparent.next_finish (s : State) (rc : RegNum) (v : Word) :
    .next ((f s).finish rc v) = mapNext f (.next (s.finish rc v)) := by
  rw [mapNext, hf.finish]

theorem Transparent.opResult_commutes (g : Word → Word → Word) (ra rb rc : RegNum) (s : State) :
    opResult g ra rb rc (f s) = mapNext f (opResult g ra rb rc s) := by
  simp only [opResult, hf.readReg, hf.next_finish]

theorem Transparent.opcResult_commutes (g : Word → Word → Word) (ra : RegNum) (lit : Lit) (rc : RegNum) (s : State) :
    opcResult g ra lit rc (f s) = mapNext f (opcResult g ra lit rc s) := by
  simp only [opcResult, hf.readReg, hf.next_finish]

/-- The end of every load and division: a value, or the stop, that does not see the change. -/
theorem Transparent.orFault_finish (r : Except Fault Word) (rc : RegNum) (s : State) :
    (orFault r fun v => .next ((f s).finish rc v)) = mapNext f (orFault r fun v => .next (s.finish rc v)) := by
  simp only [mapNext_orFault, hf.next_finish]

theorem Transparent.divide_commutes (rc : RegNum) (a b : Word) (s : State) :
    divide rc a b (f s) = mapNext f (divide rc a b s) := by
  rw [divide, divide, hf.platform, hf.orFault_finish]

theorem Transparent.exec_st_commutes (rc : RegNum) (lit : Lit) (ra : RegNum) (s : State) :
    exec (.st rc lit ra) (f s) = mapNext f (exec (.st rc lit ra) s) := by
  rw [exec_st, exec_st, State.writeWord, State.writeWord, hf.platform, hf.effectiveAddress_eq, hf.readReg]
  cases accessAt s.platform (effectiveAddress s ra lit) with
  | error e => rfl
  | ok n => simpa [orFault, mapNext, State.store, hf.platform] using hf.store s n (s.readReg rc)

/-- The 29 instructions that compute or access memory carry a transparent change along. -/
theorem Transparent.exec_commutes {i : Instr} (h : modeBlind i = true) (s : State) :
    exec i (f s) = mapNext f (exec i s) := by
  cases i
  case add | sub | mul | cmpeq | cmplt | cmple | and | or | xor => exact hf.opResult_commutes _ _ _ _ s
  case addc | subc | mulc | cmpeqc | cmpltc | cmplec | andc | orc | xorc => exact hf.opcResult_commutes _ _ _ _ s
  case shl => rw [exec_shl, exec_shl, hf.readReg, hf.readReg, hf.next_finish]
  case shr => rw [exec_shr, exec_shr, hf.readReg, hf.readReg, hf.next_finish]
  case sra => rw [exec_sra, exec_sra, hf.readReg, hf.readReg, hf.next_finish]
  case shlc => rw [exec_shlc, exec_shlc, hf.readReg, hf.next_finish]
  case shrc => rw [exec_shrc, exec_shrc, hf.readReg, hf.next_finish]
  case srac => rw [exec_srac, exec_srac, hf.readReg, hf.next_finish]
  case div => rw [exec_div, exec_div, hf.readReg, hf.readReg, hf.divide_commutes]
  case divc => rw [exec_divc, exec_divc, hf.readReg, hf.divide_commutes]
  case ld => rw [exec_ld, exec_ld, hf.effectiveAddress_eq, hf.readWord, hf.orFault_finish]
  case ldr => rw [exec_ldr, exec_ldr, hf.relativeAddress, hf.readWord, hf.orFault_finish]
  case st => exact hf.exec_st_commutes _ _ _ s
  all_goals exact absurd h Bool.false_ne_true

end

/-! ## The other mode (R218) -/

theorem State.writeReg_setPc (s : State) (p : Word) (rc : RegNum) (v : Word) :
    (s.setPc p).writeReg rc v = (s.writeReg rc v).setPc p := by
  unfold State.writeReg
  split <;> rfl

theorem otherMode_low (p : Word) : (p ^^^ 0x80000000#32).extractLsb' 0 31 = p.extractLsb' 0 31 := by
  apply BitVec.eq_of_getLsbD_eq
  intro i hi
  have hmask : ∀ i < 31, (0x80000000#32).getLsbD i = false := by decide
  simp [hi, hmask i hi]

/-- The increment does not see the Supervisor bit and keeps it (10_state.md R27). -/
theorem incPc_otherMode (p : Word) : incPc (p ^^^ 0x80000000#32) = incPc p ^^^ 0x80000000#32 := by
  refine word_ext ?_ ?_
  · rw [incPc_bit31, BitVec.getLsbD_xor, BitVec.getLsbD_xor, incPc_bit31]
  · rw [incPc_low, otherMode_low, otherMode_low, incPc_low]

theorem advance_otherMode (s : State) : (otherMode s).advance = otherMode s.advance :=
  congrArg s.setPc (incPc_otherMode s.pc)

theorem otherMode_transparent : Transparent otherMode where
  readReg _ _ := rfl
  platform _ := rfl
  readWord _ _ := rfl
  relativeAddress s lit := relativeAddress_setPc_congr s lit (otherMode_low s.pc)
  finish s rc v := by
    have hwrite : (otherMode s).writeReg rc v = otherMode (s.writeReg rc v) := by
      rw [otherMode, State.writeReg_setPc, otherMode, State.writeReg_pc]
    rw [State.finish, hwrite, advance_otherMode, State.finish]
  store s n v := advance_otherMode (s.store n v)

/-- Settles O47: the other mode is a transparent change. -/
theorem computationsAreBlindToTheMode : Obligations.ComputationsAreBlindToTheMode := by
  unfold Obligations.ComputationsAreBlindToTheMode
  exact fun i s h => otherMode_transparent.exec_commutes h s

/-! ## Other requests (R210, R211) -/

theorem State.writeReg_withRequests (q : List (Option Nat)) (s : State) (rc : RegNum) (v : Word) :
    (withRequests q s).writeReg rc v = withRequests q (s.writeReg rc v) := by
  unfold State.writeReg
  split <;> rfl

theorem withRequests_transparent (q : List (Option Nat)) : Transparent (withRequests q) where
  readReg _ _ := rfl
  platform _ := rfl
  readWord _ _ := rfl
  relativeAddress _ _ := rfl
  finish s rc v := by
    rw [State.finish, State.writeReg_withRequests]
    rfl
  store _ _ _ := rfl

theorem branch_withRequests (q : List (Option Nat)) (taken : Bool) (lit : Lit) (rc : RegNum) (s : State) :
    branch taken lit rc (withRequests q s) = withRequests q (branch taken lit rc s) := by
  rw [branch, State.writeReg_withRequests]
  rfl

theorem raiseIllegal_withRequests (q : List (Option Nat)) (s : State) :
    raiseIllegal (withRequests q s) = mapNext (withRequests q) (raiseIllegal s) := by
  have hmode : (withRequests q s).supervisor = s.supervisor := rfl
  cases hs : s.supervisor
  · rw [raiseIllegal_user (hmode.trans hs), raiseIllegal_user hs, State.takeException, State.writeReg_withRequests]
    rfl
  · rw [raiseIllegal_supervisor (hmode.trans hs), raiseIllegal_supervisor hs]
    rfl

/-- The instructions, by what they are built of. -/
theorem instr_cases (i : Instr) : modeBlind i = true ∨ (∃ ra lit rc, i = .beq ra lit rc) ∨
    (∃ ra lit rc, i = .bne ra lit rc) ∨ (∃ ra rc, i = .jmp ra rc) ∨ (∃ bits, i = .priv bits) ∨
    i ∈ illegalInstrs (operandBits i) := by
  cases i <;> simp [modeBlind, illegalInstrs, operandBits]

/-- No instruction sees the requests. -/
theorem exec_withRequests (q : List (Option Nat)) (i : Instr) (s : State) :
    exec i (withRequests q s) = mapNext (withRequests q) (exec i s) := by
  rcases instr_cases i with hblind | ⟨ra, lit, rc, rfl⟩ | ⟨ra, lit, rc, rfl⟩ | ⟨ra, rc, rfl⟩ | ⟨bits, rfl⟩ | hillegal
  · exact (withRequests_transparent q).exec_commutes hblind s
  · exact congrArg _ (branch_withRequests q _ lit rc s)
  · exact congrArg _ (branch_withRequests q _ lit rc s)
  · rw [exec_jmp, State.writeReg_withRequests]
    rfl
  · have hmode : (withRequests q s).supervisor = s.supervisor := rfl
    rw [exec_priv, exec_priv, execPrivWith, execPrivWith, hmode]
    split
    · rfl
    · exact raiseIllegal_withRequests q s
  · rw [exec_illegal _ _ i hillegal, exec_illegal _ _ i hillegal, raiseIllegal_withRequests]

/-- In supervisor mode a step executes the word at the PC on the state as it stands. -/
theorem step_of_supervisor {s : State} (h : s.supervisor = true) :
    step s = orFault s.fetch fun w => exec (decode w) s := by
  rw [step, stepBy_of_noInterruptDue (.inl h), atInstruction_supervisor h]

/-- Settles O39: neither the fetch nor the instruction sees the requests. -/
theorem supervisorModeHoldsRequests : Obligations.SupervisorModeHoldsRequests := by
  unfold Obligations.SupervisorModeHoldsRequests
  intro s q hsupervisor
  refine ⟨?_, fun t h => ?_⟩
  · have hfetch : (withRequests q s).fetch = s.fetch := rfl
    have hmode : (withRequests q s).supervisor = true := hsupervisor
    rw [step_of_supervisor hmode, step_of_supervisor hsupervisor, mapNext_orFault, hfetch]
    simp only [exec_withRequests]
  · obtain ⟨-, hrequests⟩ := stepWith_next_surroundings ((stepWith_none s).trans h)
    rw [hrequests, if_pos hsupervisor]

end Sys2Proof.Machine
end

section
/-!
The machine under a PRIV_STEP (46_privileged_and_illegal.md R190, D15; entries 12, 27, 28). An implementation is seen by PRIV
alone, and by it in supervisor mode alone; everywhere else the step under it is the step.
-/

namespace Sys2Proof.Machine

open Sys2Proof.Safety

section
variable (implementation : Option PrivilegedMeaning) {s t : State}

/-! ## Where an implementation is seen -/

theorem execWith_priv (bits : BitVec 26) (s : State) :
    execWith implementation (.priv bits) s = execPrivWith implementation bits s := rfl

/-- In user mode no instruction sees the implementation. -/
theorem execWith_of_user (i : Instr) (h : s.supervisor = false) : execWith implementation i s = exec i s := by
  by_cases hpriv : ∃ bits, i = .priv bits
  · obtain ⟨bits, rfl⟩ := hpriv
    rw [execWith_priv, exec_priv, execPrivWith_user _ bits h, execPrivWith_user _ bits h]
  · exact execWith_of_ne_priv implementation s (not_exists.1 hpriv)

/-- Only the words with opcode 0x00 are PRIV. -/
theorem opcodeField_of_decode_priv {w : Word} {bits : BitVec 26} (h : decode w = .priv bits) :
    opcodeField w = 0x00#6 ∧ bits = bitsField w := by
  have hop : opcodeField w = 0x00#6 := by
    rw [← opcodeOf_decode, h]
    rfl
  rw [decode_priv hop] at h
  exact ⟨hop, (Instr.priv.inj h).symm⟩

theorem stepWith_of_user (h : s.supervisor = false) : stepWith implementation s = step s :=
  stepBy_congr fun w _ => execWith_of_user implementation (decode w) ((atInstruction_supervisor_bit s).trans h)

theorem stepWith_of_fetch_error {f : Fault} (h : s.fetch = .error f) : stepWith implementation s = step s :=
  stepBy_congr fun w hw => by rw [h] at hw; cases hw

theorem stepWith_of_opcode_ne {w : Word} (h : s.fetch = .ok w) (hop : opcodeField w ≠ 0x00#6) :
    stepWith implementation s = step s := by
  refine stepBy_congr fun w' hw' => execWith_of_ne_priv implementation _ fun bits hpriv => hop ?_
  obtain rfl : w = w' := Except.ok.inj (h.symm.trans hw')
  exact (opcodeField_of_decode_priv hpriv).1

/-- In supervisor mode a word with opcode 0x00 does PRIV_STEP of its bits 25:0. -/
theorem stepWith_of_priv {w : Word} (h : s.supervisor = true) (hfetch : s.fetch = .ok w) (hop : opcodeField w = 0x00#6) :
    stepWith implementation s = privStep implementation (bitsField w) s := by
  rw [stepWith, stepBy_of_noInterruptDue (.inl h), hfetch, orFault, atInstruction_supervisor h, decode_priv hop,
    execWith_priv, execPrivWith_supervisor _ _ h]

end

/-! ## What PRIV_STEP answers -/

theorem privStep_defined {meaning : PrivilegedMeaning} {bits : BitVec 26} {s : State} {v : Visible}
    (h : meaning bits s.visible = some v) :
    ∃ t, privStep (some meaning) bits s = .next t ∧ t.visible = v ∧ SameSurroundings s t :=
  ⟨s.withVisible v, by rw [privStep, h], State.withVisible_visible s v, rfl, rfl⟩

theorem privStep_undefined {meaning : PrivilegedMeaning} {bits : BitVec 26} {s : State}
    (h : meaning bits s.visible = none) : privStep (some meaning) bits s = .fault .supervisorException := by
  rw [privStep, h]

/-- Settles O52: PRIV by mode, and every other instruction as it is. -/
theorem privStepIsTheImplementations : Obligations.PrivStepIsTheImplementations := by
  unfold Obligations.PrivStepIsTheImplementations
  refine ⟨fun implementation i s => execWith_of_ne_priv implementation s, execWith_none,
    fun implementation bits s huser => ?_, fun meaning bits s v hsupervisor hdefined => ?_,
    fun meaning bits s hsupervisor hundefined => ?_⟩
  · exact ⟨_, execPrivWith_user implementation bits huser, takeException_enters s .illegalInstruction⟩
  · rw [execWith_priv, execPrivWith_supervisor _ bits hsupervisor]
    exact privStep_defined hdefined
  · rw [execWith_priv, execPrivWith_supervisor _ bits hsupervisor, privStep_undefined hundefined]

/-- Settles O53: the step by mode, fetch and opcode. -/
theorem implementationIsSeenOnlyByPrivileged : Obligations.ImplementationIsSeenOnlyByPrivileged := by
  unfold Obligations.ImplementationIsSeenOnlyByPrivileged
  refine ⟨stepWith_none, fun implementation s => stepWith_of_user implementation,
    fun implementation s f => stepWith_of_fetch_error implementation,
    fun implementation s w => stepWith_of_opcode_ne implementation,
    fun meaning s w v hsupervisor hfetch hop hdefined => ?_, fun meaning s w hsupervisor hfetch hop hundefined => ?_⟩
  · rw [stepWith_of_priv _ hsupervisor hfetch hop]
    exact privStep_defined hdefined
  · rw [stepWith_of_priv _ hsupervisor hfetch hop, privStep_undefined hundefined]

/-! ## The mode (60_exceptions.md R219; entry 28) -/

/-- A step that leaves supervisor mode executes JMP, or PRIV_STEP of a word for which the implementation clears the bit. -/
theorem stepWith_leaves_supervisor {implementation : Option PrivilegedMeaning} {s t : State}
    (h : stepWith implementation s = .next t) (hs : s.supervisor = true) (ht : t.supervisor = false) :
    ∃ w, s.fetch = .ok w ∧
      ((∃ ra rc, decode w = .jmp ra rc ∧ (s.readReg ra).getLsbD 31 = false) ∨
       (opcodeField w = 0x00#6 ∧ ∃ meaning v, implementation = some meaning ∧
          meaning (bitsField w) s.visible = some v ∧ v.pc.getLsbD 31 = false ∧ t = s.withVisible v)) := by
  rcases stepBy_next_cases h with ⟨k, huser, -, -⟩ | ⟨-, w, hfetch, hexecWith⟩
  · simp [huser] at hs
  · rw [atInstruction_supervisor hs] at hexecWith
    rcases execWith_next_cases hexecWith with hexec | ⟨-, bits, meaning, v, hpriv, hnamed, hdefined, rfl⟩
    · exact ⟨w, hfetch, .inl (exec_leaves_supervisor hexec hs ht)⟩
    · obtain ⟨hop, rfl⟩ := opcodeField_of_decode_priv hpriv
      exact ⟨w, hfetch, .inr ⟨hop, meaning, v, hnamed, hdefined, ht, rfl⟩⟩

/-- Settles O57: in user mode no implementation is seen, and in supervisor mode one that keeps the bit leaves only JMP. -/
theorem supervisorModeIsLeftByJmpOrTheImplementation : Obligations.SupervisorModeIsLeftByJmpOrTheImplementation := by
  unfold Obligations.SupervisorModeIsLeftByJmpOrTheImplementation
  refine ⟨fun implementation s t h hs ht => ?_, fun implementation s t => stepWith_leaves_supervisor,
    fun meaning hkeeps s t h hs ht => ?_⟩
  · rw [stepWith_of_user implementation hs] at h
    obtain ⟨kind, rfl⟩ := step_enters_supervisor h hs ht
    exact ⟨kind, takeException_enters s.passBoundary kind⟩
  · obtain ⟨w, hfetch, ⟨ra, rc, hjmp, hbit⟩ | ⟨-, meaning', v, hnamed, hdefined, hclear, -⟩⟩ :=
      stepWith_leaves_supervisor h hs ht
    · exact ⟨w, ra, rc, hfetch, hjmp, hbit⟩
    · cases hnamed
      have hset := hkeeps (bitsField w) s.visible v hs hdefined
      exact absurd (hclear.symm.trans hset) Bool.false_ne_true

end Sys2Proof.Machine
end

section
/-!
The end of a run (70_reset_and_hazards.md R246, D20; entry 17). A run ends with the first state that meets the predicate: one
step sooner seen from the next state, which is the induction. Under the spec's convention that state executes the self-branch,
which loads the PC it stands at and writes register 31.
-/

namespace Sys2Proof.Machine

open Sys2Proof.Safety

/-! ## The first state that meets a predicate -/

section
variable {next : State → Host.Outcome State Fault Refusal} {ended : EndOfRun} {s t : State}

/-- `t` is the state after `k` steps, it meets the predicate, and every state before it exists and does not. -/
def EndsAfter (next : State → Host.Outcome State Fault Refusal) (ended : EndOfRun) (k : Nat) (s t : State) : Prop :=
  stepsFrom next k s = .next t ∧ ended t = true ∧ ∀ j, j < k → ∃ u, stepsFrom next j s = .next u ∧ ended u = false

theorem endsAfter_zero_iff : EndsAfter next ended 0 s t ↔ s = t ∧ ended s = true := by
  constructor
  · rintro ⟨hsteps, hended, -⟩
    cases hsteps
    exact ⟨rfl, hended⟩
  · rintro ⟨rfl, hended⟩
    exact ⟨rfl, hended, fun j hj => absurd hj j.not_lt_zero⟩

/-- One step more: the state does not meet the predicate, and its next state ends one step sooner. -/
theorem endsAfter_succ_iff {k : Nat} :
    EndsAfter next ended (k + 1) s t ↔ ended s = false ∧ ∃ u, next s = .next u ∧ EndsAfter next ended k u t := by
  constructor
  · rintro ⟨hsteps, hended, hbefore⟩
    obtain ⟨s', hs', hs⟩ := hbefore 0 k.succ_pos
    cases hs'
    obtain ⟨u, hu, hrest⟩ := stepsFrom_succ_next hsteps
    refine ⟨hs, u, hu, hrest, hended, fun j hj => ?_⟩
    obtain ⟨v, hv, hnot⟩ := hbefore (j + 1) (Nat.succ_lt_succ hj)
    exact ⟨v, (stepsFrom_succ_of_next hu j).symm.trans hv, hnot⟩
  · rintro ⟨hs, u, hu, hrest, hended, hbefore⟩
    refine ⟨(stepsFrom_succ_of_next hu k).trans hrest, hended, fun j hj => ?_⟩
    cases j with
    | zero => exact ⟨s, rfl, hs⟩
    | succ j =>
      obtain ⟨v, hv, hnot⟩ := hbefore j (Nat.lt_of_succ_lt_succ hj)
      exact ⟨v, (stepsFrom_succ_of_next hu j).trans hv, hnot⟩

/-- A state that meets the predicate ends the run, and no later state does. -/
theorem endsAfter_iff_of_ended (h : ended s = true) (n : Nat) :
    (∃ k, k ≤ n ∧ EndsAfter next ended k s t) ↔ s = t := by
  constructor
  · rintro ⟨k, -, hk⟩
    cases k with
    | zero => exact (endsAfter_zero_iff.1 hk).1
    | succ k =>
      obtain ⟨hnot, -⟩ := endsAfter_succ_iff.1 hk
      exact absurd (hnot.symm.trans h) Bool.false_ne_true
  · rintro rfl
    exact ⟨0, n.zero_le, endsAfter_zero_iff.2 ⟨rfl, h⟩⟩

theorem not_endsAfter_zero_of_not_ended (h : ended s = false) : ¬ ∃ k, k ≤ 0 ∧ EndsAfter next ended k s t := by
  rintro ⟨k, hk, hends⟩
  obtain rfl : k = 0 := Nat.le_zero.1 hk
  obtain ⟨-, hended⟩ := endsAfter_zero_iff.1 hends
  exact absurd (h.symm.trans hended) Bool.false_ne_true

/-- A state that does not meet the predicate ends where its next state does, one step sooner. -/
theorem endsAfter_iff_of_not_ended (h : ended s = false) (n : Nat) :
    (∃ k, k ≤ n + 1 ∧ EndsAfter next ended k s t) ↔
      ∃ u, next s = .next u ∧ ∃ k, k ≤ n ∧ EndsAfter next ended k u t := by
  constructor
  · rintro ⟨k, hk, hends⟩
    cases k with
    | zero => exact absurd ⟨0, le_rfl, hends⟩ (not_endsAfter_zero_of_not_ended h)
    | succ k =>
      obtain ⟨-, u, hu, hrest⟩ := endsAfter_succ_iff.1 hends
      exact ⟨u, hu, k, Nat.le_of_succ_le_succ hk, hrest⟩
  · rintro ⟨u, hu, k, hk, hends⟩
    exact ⟨k + 1, Nat.succ_le_succ hk, endsAfter_succ_iff.2 ⟨h, u, hu, hends⟩⟩

/-- A run ends in the first state that meets the predicate. -/
theorem runUntil_eq_next_iff (n : Nat) (s : State) :
    runUntil next ended n s = some (.next t) ↔ ∃ k, k ≤ n ∧ EndsAfter next ended k s t := by
  induction n generalizing s with
  | zero =>
    cases hs : ended s
    · simpa [runUntil_zero_of_not_ended hs] using not_endsAfter_zero_of_not_ended (next := next) (t := t) hs
    · rw [runUntil_of_ended hs, endsAfter_iff_of_ended hs]
      simp
  | succ n ih =>
    cases hs : ended s
    · rw [endsAfter_iff_of_not_ended hs]
      cases hnext : next s with
      | next u => simp [runUntil_succ_of_next hs hnext, ih]
      | fault f => simp [runUntil_succ_of_fault hs hnext]
      | refused r => simp [runUntil_succ_of_refused hs hnext]
    · rw [runUntil_of_ended hs, endsAfter_iff_of_ended hs]
      simp

/-- What a run has come to, more steps do not change. -/
theorem runUntil_mono {n m : Nat} {r : Host.Outcome State Fault Refusal} (hnm : n ≤ m)
    (h : runUntil next ended n s = some r) : runUntil next ended m s = some r := by
  induction n generalizing m s with
  | zero =>
    cases hs : ended s
    · rw [runUntil_zero_of_not_ended hs] at h
      cases h
    · rw [runUntil_of_ended hs] at h ⊢
      exact h
  | succ n ih =>
    obtain ⟨m, rfl⟩ : ∃ k, m = k + 1 := ⟨m - 1, by omega⟩
    cases hs : ended s
    · cases hnext : next s with
      | next u =>
        rw [runUntil_succ_of_next hs hnext] at h ⊢
        exact ih (Nat.le_of_succ_le_succ hnm) h
      | fault f =>
        rw [runUntil_succ_of_fault hs hnext] at h ⊢
        exact h
      | refused e =>
        rw [runUntil_succ_of_refused hs hnext] at h ⊢
        exact h
    · rw [runUntil_of_ended hs] at h ⊢
      exact h

end

/-- Settles O55, for any step, by induction on the bound. -/
theorem runEndsAtTheFirstStateOfEndOfRun : Obligations.RunEndsAtTheFirstStateOfEndOfRun := by
  unfold Obligations.RunEndsAtTheFirstStateOfEndOfRun
  exact ⟨fun implementation ended n s t => runUntil_eq_next_iff n s, fun implementation ended n m s r => runUntil_mono⟩

/-! ## The self-branch -/

/-- The spec's convention, read off the fetch, the mode and the list of sources. -/
theorem endOfRun_iff (s : State) :
    endOfRun s = true ↔ s.fetch = .ok selfBranch ∧ (s.supervisor = true ∨ s.platform.vecIrq = []) := by
  unfold endOfRun
  cases s.fetch <;> simp

theorem decode_selfBranch : decode selfBranch = .beq r31 0xFFFF#16 r31 := by decide

/-- Four bytes on and one word back is the PC itself. -/
theorem branchTarget_self (p : Word) : branchTarget p 0xFFFF#16 = p := by
  refine word_ext (branchTarget_bit31 p _) ?_
  have hback : (displacement 0xFFFF#16).extractLsb' 0 31 = -4#31 := by decide
  rw [branchTarget_low, hback, BitVec.add_neg_eq_sub, BitVec.add_sub_cancel]

/-- The self-branch changes nothing: it is taken, to its own address, and its link goes to register 31. -/
theorem exec_selfBranch (s : State) : exec (decode selfBranch) s = .next s := by
  have htaken : (s.readReg r31 == 0#32) = true := by rw [State.readReg_r31, beq_self_eq_true]
  rw [decode_selfBranch, exec_beq, htaken, branch, State.writeReg_r31, if_pos rfl, branchTarget_self]
  rfl

/-- With no source no request stands, whatever the list of requests holds. -/
theorem noRequestStands_of_no_source {p : Platform} (h : p.vecIrq = []) (requests : List (Option Nat)) :
    NoRequestStands p requests := by
  rcases requests with _ | ⟨_ | k, rest⟩
  · exact .inl rfl
  · exact .inr (.inl ⟨rest, rfl⟩)
  · exact .inr (.inr ⟨k, rest, rfl, by simp [h]⟩)

/-- At the end of a run the step takes the boundary's entry and changes nothing else. -/
theorem stepWith_of_endOfRun (implementation : Option PrivilegedMeaning) {s : State} (h : endOfRun s = true) :
    stepWith implementation s = .next (atInstruction s) := by
  obtain ⟨hfetch, hquiet⟩ := (endOfRun_iff s).1 h
  have hdue : NoInterruptDue s := hquiet.imp_right fun hsources => noRequestStands_of_no_source hsources _
  have hpriv : ∀ bits, decode selfBranch ≠ .priv bits := fun bits => by rw [decode_selfBranch]; exact nofun
  rw [stepWith, stepBy_of_noInterruptDue hdue, hfetch, orFault, execWith_of_ne_priv _ _ hpriv, exec_selfBranch]

theorem step_of_endOfRun {s : State} (h : endOfRun s = true) : step s = .next (atInstruction s) :=
  (stepWith_none s).symm.trans (stepWith_of_endOfRun none h)

/-- The convention does not see the requests. -/
theorem endOfRun_atInstruction {s : State} (h : endOfRun s = true) : endOfRun (atInstruction s) = true := by
  rw [endOfRun_iff] at h ⊢
  simpa using h

theorem atInstruction_of_nothing_to_take {s : State} (h : s.supervisor = true ∨ s.irqRequests = []) :
    atInstruction s = s := by
  rcases h with hsupervisor | hnone
  · exact atInstruction_supervisor hsupervisor
  · rw [atInstruction, hnone, List.tail_nil, ← hnone]
    exact ite_self s

/-- Settles O51: the step at the self-branch. -/
theorem endOfRunIsAFixedPoint : Obligations.EndOfRunIsAFixedPoint := by
  unfold Obligations.EndOfRunIsAFixedPoint
  refine ⟨endOfRun_iff, fun implementation s => stepWith_of_endOfRun implementation, fun s => step_of_endOfRun,
    fun s h => ⟨endOfRun_atInstruction h, atInstruction_visible s, atInstruction_platform s⟩, fun s h hnothing => ?_⟩
  rw [step_of_endOfRun h, atInstruction_of_nothing_to_take hnothing]

/-- Settles O56, by induction on the number of steps. -/
theorem nothingVisibleChangesAfterEndOfRun : Obligations.NothingVisibleChangesAfterEndOfRun := by
  unfold Obligations.NothingVisibleChangesAfterEndOfRun
  intro implementation s n h
  induction n generalizing s with
  | zero => exact ⟨s, rfl, rfl, h⟩
  | succ n ih =>
    obtain ⟨t, hsteps, hvisible, hended⟩ := ih (atInstruction s) (endOfRun_atInstruction h)
    refine ⟨t, ?_, hvisible.trans (atInstruction_visible s), hended⟩
    rw [stepsFrom_succ_of_next (stepWith_of_endOfRun implementation h), hsteps]

end Sys2Proof.Machine
end
